-- ==== Sys2Proof/Word.lean ====
section
/-! DEFINITION. The word types of PWMMUX, at the widths spec/00_scope.md rule R8 fixes.
Every quantity of the block is unsigned (R11, R33, R156). -/

namespace Sys2Proof

/-- Command words, event words and every register: 32 bits (R8). -/
abbrev Word := BitVec 32

/-- One byte lane of a platform bridge (R44). -/
abbrev Byte := BitVec 8

/-- A pin identifier, which also names the Channel: 8 bits, every value valid (R8, R14). -/
abbrev Pin := BitVec 8

/-- A duty value: 8 bits, all 256 values legal (R8, R15). -/
abbrev Duty := BitVec 8

/-- A requested PWM frequency in hertz: 16 bits unsigned (R8, R54). -/
abbrev Freq := BitVec 16

/-- A word address of the register window: 9 bits, 0..511 (R27, R37). -/
abbrev WordAddr := BitVec 9

/-- A byte offset into the 2 KiB window as a platform bridge sees it (R27, R44, R45). -/
abbrev ByteOffset := BitVec 11

end Sys2Proof
end

