-- ==== Sys2Proof/Syntax.lean ====
section
/-! DEFINITION. The syntax of PWMMUX: the seven operations of spec/opcode_table.json (six host commands and the TICK
event), the seven output events of spec/30_encoding.md rule R61, the register names of spec/10_state.md rule R27 and the
assembler lines of spec/30_encoding.md rules R64 and R65. -/

namespace Sys2Proof

/-- One constructor per row of spec/opcode_table.json. The operands have the widths of the command word's fields
(R53, R54), so an instruction whose operand does not fit its field cannot be written. -/
inductive Instr where
  /-- NOP (R102). -/
  | nop
  /-- INIT p, f (R103). -/
  | init (p : Pin) (f : Freq)
  /-- ENABLE p (R105). -/
  | enable (p : Pin)
  /-- DISABLE p (R106). -/
  | disable (p : Pin)
  /-- WRITE p, d (R108). -/
  | write (p : Pin) (d : Duty)
  /-- DESTROY p (R109). -/
  | destroy (p : Pin)
  /-- TICK, one pulse on `tick_in` (R62, R89). -/
  | tick
deriving DecidableEq, Repr

/-- One call of the block on an external collaborator (R61). -/
inductive Event where
  /-- `SET_PIN_LEVEL(p, level)`, kind 1; `true` is high. -/
  | setPinLevel (p : Pin) (level : Bool)
  /-- `SET_OUTPUT_MODE(p)`, kind 2. -/
  | setOutputMode (p : Pin)
  /-- `CONFIGURE_RATE(sel, reload)`, kind 3. -/
  | configureRate (sel : BitVec 8) (reload : BitVec 16)
  /-- `RESET_COUNTER`, kind 4. -/
  | resetCounter
  /-- `ARM_INTERRUPT`, kind 5. -/
  | armInterrupt
  /-- `DISARM_INTERRUPT`, kind 6. -/
  | disarmInterrupt
  /-- `HALT_COUNTING`, kind 7. -/
  | haltCounting
deriving DecidableEq, Repr

/-- The register names of the window (R27), as `READ name` writes them (R64). -/
inductive RegName where
  | cmd
  | result
  | status
  | cycle
  | tcfg
  | param
  | slot (i : Nat)
  | duty (p : Nat)
deriving DecidableEq, Repr

/-- One line of the assembler syntax (R64), and the one pseudo-instruction (R65). Operands are the numerals as
written; `AsmLine.WellFormed` says which the assembler accepts. -/
inductive AsmLine where
  | nop
  | init (p f : Nat)
  /-- The pseudo-instruction `INIT p` (R65). -/
  | initDefault (p : Nat)
  | enable (p : Nat)
  | disable (p : Nat)
  | write (p d : Nat)
  | destroy (p : Nat)
  /-- `TICK n`; a plain `TICK` is `TICK 1`. -/
  | ticks (n : Nat)
  | read (r : RegName)
  | reset
deriving DecidableEq, Repr

end Sys2Proof
end

