-- ==== Sys2Proof/Decode.lean ====
section
/-! DEFINITION. Decoding and encoding (spec/30_encoding.md rules R53 to R59, R62). The block has two places where an
operation arrives: the 32-bit word written to `CMD`, and the 1-bit input `tick_in`. Decoding is total: every word is
exactly one command or illegal, and an illegal word is rejected by the name of the condition of R57 it meets. -/

namespace Sys2Proof

/-- `OP`, bits 31:28 (R53). -/
def opField (w : Word) : BitVec 4 := w.extractLsb' 28 4

/-- `RSV`, bits 27:24 (R53). -/
def rsvField (w : Word) : BitVec 4 := w.extractLsb' 24 4

/-- `PIN`, bits 23:16 (R53). -/
def pinField (w : Word) : Pin := w.extractLsb' 16 8

/-- `ARG`, bits 15:0 (R53). -/
def argField (w : Word) : BitVec 16 := w.extractLsb' 0 16

/-- `ARG[15:8]`, which WRITE requires to be 0 (R54). -/
def argHighField (w : Word) : BitVec 8 := w.extractLsb' 8 8

/-- `ARG[7:0]`, the duty of WRITE (R54). -/
def dutyField (w : Word) : Duty := w.extractLsb' 0 8

/-- The word with the given bits 31:28, 23:16 and 15:0, and bits 27:24 zero: the layout of command words (R53) and of
event words (R60). -/
def packFields (hi : BitVec 4) (mid : BitVec 8) (lo : BitVec 16) : Word := hi ++ 0#4 ++ mid ++ lo

/-- Why a signal is no instruction: the conditions of R57, and `tick_in` = 0, which is no event (R62). Where several
conditions of R57 hold the decoder names one; nothing of the block depends on which (log entry 10). -/
inductive Illegal where
  /-- `OP` ≥ 6. -/
  | reservedOp
  /-- `RSV` ≠ 0. -/
  | reservedBits
  /-- `OP` = 0 and `PIN` ≠ 0. -/
  | nonzeroPin
  /-- `OP` ∈ {0, 2, 3, 5} and `ARG` ≠ 0. -/
  | nonzeroArg
  /-- `OP` = 4 and `ARG[15:8]` ≠ 0. -/
  | nonzeroArgHigh
  /-- `tick_in` = 0. -/
  | noTick
deriving DecidableEq, Repr

/-- What carries one operation into the block: a word on `CMD`, or the level of `tick_in` in one transaction. -/
inductive Signal where
  | cmdWord (w : Word)
  | tickIn (v : BitVec 1)
deriving DecidableEq, Repr

/-- A command without operand bits in `ARG` (R54). -/
def decodePinOnly (w : Word) (i : Pin → Instr) : Except Illegal Instr :=
  if argField w = 0 then .ok (i (pinField w)) else .error .nonzeroArg

/-- The 32-bit command word (R55 to R57). -/
def decodeCmd (w : Word) : Except Illegal Instr :=
  if rsvField w ≠ 0 then .error .reservedBits
  else if opField w = 0 then
    if pinField w ≠ 0 then .error .nonzeroPin
    else if argField w ≠ 0 then .error .nonzeroArg
    else .ok .nop
  else if opField w = 1 then .ok (.init (pinField w) (argField w))
  else if opField w = 2 then decodePinOnly w .enable
  else if opField w = 3 then decodePinOnly w .disable
  else if opField w = 4 then
    if argHighField w = 0 then .ok (.write (pinField w) (dutyField w)) else .error .nonzeroArgHigh
  else if opField w = 5 then decodePinOnly w .destroy
  else .error .reservedOp

/-- The decoder: the same in every state (R59). -/
def decode : Signal → Except Illegal Instr
  | .cmdWord w => decodeCmd w
  | .tickIn v => if v = 1 then .ok .tick else .error .noTick

/-- The encoder, from the field layout of R53 and the opcodes of R55. -/
def encode : Instr → Signal
  | .nop => .cmdWord (packFields 0 0 0)
  | .init p f => .cmdWord (packFields 1 p f)
  | .enable p => .cmdWord (packFields 2 p 0)
  | .disable p => .cmdWord (packFields 3 p 0)
  | .write p d => .cmdWord (packFields 4 p (d.setWidth 16))
  | .destroy p => .cmdWord (packFields 5 p 0)
  | .tick => .tickIn 1

/-- The signal that a row of spec/opcode_table.json stands for. The TICK row has one bit (one byte when counted in whole
bytes), bit 0 being the level of `tick_in`; every other row is a 32-bit command word (log entry 9). -/
def signalOfTable (nbits w : Nat) : Signal :=
  if nbits ≤ 8 then .tickIn (BitVec.ofNat 1 w) else .cmdWord (BitVec.ofNat 32 w)

/-- The instruction the decoder reads from a table row's bits. -/
def decodeTableWord (nbits w : Nat) : Option Instr :=
  match decode (signalOfTable nbits w) with
  | .ok i => some i
  | .error _ => none

/-- The word whose byte lanes a bridge presents, lane 0 in bits 7:0: little-endian lanes (R44). -/
def wordOfLanes (b0 b1 b2 b3 : Byte) : Word := b3 ++ b2 ++ b1 ++ b0

/-- The byte lanes of a word, lane 0 first (R44). -/
def lanesOfWord (w : Word) : List Byte :=
  [w.extractLsb' 0 8, w.extractLsb' 8 8, w.extractLsb' 16 8, w.extractLsb' 24 8]

end Sys2Proof
end

