-- ==== Sys2Proof/Config.lean ====
section
/-! DEFINITION. The parameters of an instance of PWMMUX (spec/00_scope.md rule R7, spec/92_eei_decisions.md D7 to D9).
They are constants of an instance, not state of the block (spec/10_state.md rule R25). The model carries them in one
field of State that no step writes, so that a statement about every state is a statement about every parameter set
(log entry 1). The spec leaves no value free: there is no opaque constant here. -/

namespace Sys2Proof

/-- One entry of `PRESCALE`: the divisor is 2^shift, `sel` the collaborator's selection code (R7, D12). -/
structure PrescaleEntry where
  shift : Nat
  sel : BitVec 8
deriving DecidableEq, Repr

/-- The five named parameters of R7. -/
structure Config where
  /-- `MAX_CHANNELS`, the capacity of the registry. -/
  maxChannels : Nat
  /-- `MAX_FREQUENCY`, the ceiling of the requested frequency in hertz. -/
  maxFrequency : Nat
  /-- `F_CLK`, the source's `clockRate`. -/
  fClk : Nat
  /-- `RES`, the timer's counting resolution. -/
  res : Nat
  /-- `PRESCALE`, smallest divisor first. -/
  prescale : List PrescaleEntry
deriving DecidableEq, Repr

/-- The default parameter set `P0` of R7. Its values other than 300 are the spec's general knowledge (G1 to G4;
log entry 2). -/
def Config.P0 : Config :=
  { maxChannels := 4
    maxFrequency := 300
    fClk := 16000000
    res := 256
    prescale := [⟨0, 1⟩, ⟨3, 2⟩, ⟨5, 3⟩, ⟨6, 4⟩, ⟨7, 5⟩, ⟨8, 6⟩, ⟨10, 7⟩] }

end Sys2Proof
end

