-- ==== Sys2Proof/Machine/State.lean ====
section
/-! DEFINITION. The state of the machine: every element of spec/10_state.md rule R13, the instance's parameters (R7), and
the ports of spec/30_encoding.md rule R63 as plain data (what has been put on them and what is still to come). -/

namespace Sys2Proof.Machine

/-- One entry of the registry, `SLOT[i]` (R17). -/
structure Slot where
  valid : Bool
  pin : Pin
deriving DecidableEq, Repr

/-- The empty marker: `VALID` 0 and `PIN` 0 (R17). -/
def Slot.empty : Slot := ⟨false, 0⟩

/-- One Channel record, `DUTY[p]`: `c` is `committedDuty`, `p` is `pendingDuty` (R14). -/
structure DutyPair where
  c : Duty
  p : Duty
deriving DecidableEq, Repr

/-- The result flags, `RESULT` (R24). -/
structure Result where
  ok : Bool
  empty : Bool
  err : BitVec 4
deriving DecidableEq, Repr

/-- One transaction of the host port (R37). -/
inductive HostTxn where
  | read (a : WordAddr)
  | write (a : WordAddr) (v : Word)
deriving DecidableEq, Repr

/-- An access that a byte-addressed platform makes through its bridge (R44, R45): a read of some number of bytes, or a
write of bytes, lowest offset first. -/
inductive BridgeAccess where
  | read (size : Nat)
  | write (bytes : List Byte)
deriving DecidableEq, Repr

/-- What the outside world presents to the block, in the one total order of R47. -/
inductive Input where
  /-- A host port transaction. -/
  | host (t : HostTxn)
  /-- The level of `tick_in` for one transaction: 1 is a TICK, 0 is no event (R62). -/
  | tickIn (v : BitVec 1)
  /-- The assertion of `rst` (R133). -/
  | rst
  /-- A `tick_in` pulse and a host transaction presented at the same instant (R121). -/
  | hostWithTick (t : HostTxn)
  /-- A host transaction during whose step a `tick_in` pulse arrives (R120). -/
  | tickDuringHost (t : HostTxn)
  /-- A second pulse while a TICK step is in progress (R124). -/
  | tickDuringTick
  /-- An access of a byte-addressed platform at a byte offset of the window (R44, R45). -/
  | bridge (offset : ByteOffset) (x : BridgeAccess)
deriving DecidableEq, Repr

/-- The answer of one host read: the 32 bits of read data the port carried, with the address they answer (R37, R39). -/
structure Reply where
  addr : WordAddr
  data : Word
deriving DecidableEq, Repr

/-- The state. The fields from `slots` to `result` are the block's state, all of it (R13). -/
structure State where
  /-- The instance's parameters (R7): no step writes them (log entry 1). -/
  config : Config
  /-- `SLOT[0..MAX_CHANNELS−1]` (R17). -/
  slots : List Slot
  /-- `LIVE`, the live count (R19). -/
  live : BitVec 8
  /-- `DUTY[0..255]`, the Channel records (R14). -/
  duty : Vector DutyPair 256
  /-- `CYCLE`, the shared cycle counter (R21). -/
  cycle : BitVec 8
  /-- `INIT`, the "is-initialized" flag (R22). -/
  init : Bool
  /-- `TCFG.SEL` (R22). -/
  tcfgSel : BitVec 8
  /-- `TCFG.RELOAD` (R22). -/
  tcfgReload : BitVec 16
  /-- `ARMED`, shadow of the tick source's interrupt-enable (R23). -/
  armed : Bool
  /-- `RUN`, shadow of the tick source's counting-enable (R23). -/
  run : Bool
  /-- `RESULT` (R24). -/
  result : Result
  /-- The output event port: every event since reset, oldest first (R60). An output, not block state (R25). -/
  trace : List Event
  /-- The read side of the host port: every answer since reset, oldest first. An output (log entry 4). -/
  replies : List Reply
  /-- The inputs still to come, next first (R47; log entry 3). -/
  inputs : List Input
deriving DecidableEq, Repr

/-- The reasons the machine stops with a fault: none. "The block has no fault state, no lock-up and no undefined
behaviour at this level" (R118), so the type has no constructor and no step can answer a fault. -/
inductive Fault where
deriving DecidableEq, Repr

/-- The reasons a step refuses. -/
inductive Refusal where
  /-- An instruction without a meaning, by its mnemonic. Safe. No arm of `exec` raises it: every instruction has its meaning. -/
  | notModelled (mnemonic : String)
  /-- A platform access that is not exactly 4 bytes at a byte offset divisible by 4. Raised by `serveInput` on
  `Input.bridge`. "The model treats it as a refused input, not as a step" (R45). Safe. -/
  | misalignedAccess
  /-- A second `tick_in` pulse while a TICK step is in progress. Raised by `serveInput` on `Input.tickDuringTick`. "its
  effect is not defined by the source and is outside this model" (R124; treatment `refuse`, U4). Safe for the runs that
  hold the input. -/
  | tickOverrun
deriving DecidableEq, Repr

/-- The machine right after reset (R35, R134, R135), as an instance of the default parameter set `P0` (R7; log entry 2):
table empty, every register 0, no event and no answer yet, nothing presented. -/
def State.reset : State :=
  { config := Config.P0
    slots := List.replicate Config.P0.maxChannels Slot.empty
    live := 0
    duty := Vector.replicate 256 ⟨0, 0⟩
    cycle := 0
    init := false
    tcfgSel := 0
    tcfgReload := 0
    armed := false
    run := false
    result := ⟨false, false, 0⟩
    trace := []
    replies := []
    inputs := [] }

end Sys2Proof.Machine
end

