-- ==== Sys2Proof/Machine/Flags.lean ====
section
/-! DEFINITION. The flags: the three fields of `RESULT`, always written together (spec/10_state.md rules R24, R32), and
the codes of the command errors (spec/60_exceptions.md rule R113). -/

namespace Sys2Proof.Machine

/-- The command errors (R113). -/
inductive Error where
  | frequencyOutOfRange
  | registryFull
  | illegalCommand
deriving DecidableEq, Repr

/-- `code(E)` (R113). -/
def errorCode : Error → BitVec 4
  | .frequencyOutOfRange => 1
  | .registryFull => 2
  | .illegalCommand => 3

/-- `RESULT <- {OK ok, EMPTY empty, ERR err}` (R24, R101). -/
def setResult (ok empty : Bool) (err : BitVec 4) (s : State) : State :=
  { s with result := ⟨ok, empty, err⟩ }

end Sys2Proof.Machine
end

