-- ==== Sys2Proof/Machine/Operands.lean ====
section
/-! DEFINITION. The operand forms: the Channel record a pin names (spec/43_channel_lifecycle.md rule R154 (b), (c)).
Every 8-bit pin has its record, so no access can miss. -/

namespace Sys2Proof.Machine

/-- Every pin indexes one of the 256 records (R154). -/
theorem pin_lt (p : Pin) : p.toNat < 256 := p.isLt

/-- Reads `DUTY[p]` (R14). -/
def dutyAt (s : State) (p : Pin) : DutyPair := s.duty[p.toNat]'(pin_lt p)

/-- Writes both fields of `DUTY[p]`. -/
def setDuty (p : Pin) (d : DutyPair) (s : State) : State :=
  { s with duty := s.duty.set p.toNat d (pin_lt p) }

/-- `DUTY[p].P <- d`, the plain store of WRITE (R108). -/
def setPending (p : Pin) (d : Duty) (s : State) : State :=
  setDuty p { dutyAt s p with p := d } s

/-- `DUTY[p].C <- DUTY[p].P`, the commit of the Cycle Servicer (R91). -/
def commitDuty (p : Pin) (s : State) : State :=
  setDuty p { dutyAt s p with c := (dutyAt s p).p } s

end Sys2Proof.Machine
end

