-- ==== Sys2Proof/Machine/Ops.lean ====
section
/-! DEFINITION. The operations every family shares: putting an event on the output port, raising a command error (the
block's synchronous exception), and reset. -/

namespace Sys2Proof.Machine

/-- `emit E`: appends the event to the trace. It always succeeds (R11, R60). -/
def emit (e : Event) (s : State) : State := { s with trace := s.trace ++ [e] }

/-- `raise E`: `RESULT <- {OK 0, EMPTY 0, ERR code(E)}` and the command ends (R101, R113). It saves nothing and
transfers no control: there is no pc, no mode and no saved state (R30, R113, R126), so there is nothing to return from
either (R124). -/
def raise (e : Error) (s : State) : State := setResult false false (errorCode e) s

/-- The effect of `rst` (R133 to R135): every state element takes its value of R35 and the trace restarts. The instance's
parameters stay, and so do the inputs not yet presented; the answers of the read port restart with the trace (log
entry 4). -/
def resetBlock (s : State) : State :=
  { s with
    slots := List.replicate s.config.maxChannels Slot.empty
    live := 0
    duty := Vector.replicate 256 ⟨0, 0⟩
    cycle := 0
    init := false
    tcfgSel := 0
    tcfgReload := 0
    armed := false
    run := false
    result := ⟨false, false, 0⟩
    trace := []
    replies := [] }

end Sys2Proof.Machine
end

