-- ==== Sys2Proof/Machine/Registry.lean ====
section
/-! DEFINITION. The Channel Registry: the micro-operations REGISTER and UNREGISTER and the dispatch iteration
(spec/41_channel_registry.md). The loops over `SLOT[0..MAX_CHANNELS−1]` are recursions over the list of slots, whose
length is `MAX_CHANNELS` in every reachable state (log entry 12). -/

namespace Sys2Proof.Machine

/-- REGISTER's scan: the first empty slot takes the pin; `none` when no slot is empty (R77, R78). -/
def claimSlot (p : Pin) : List Slot → Option (List Slot)
  | [] => none
  | x :: xs => if x.valid then (claimSlot p xs).map (x :: ·) else some (⟨true, p⟩ :: xs)

/-- REGISTER (R78). `none` is the source's failure: the table is full and nothing is changed (R79 (a)). It makes no test
of whether the pin is already live, and resets the pin's duty pair (R79 (b), (c)). -/
def register (p : Pin) (s : State) : Option State :=
  (claimSlot p s.slots).map fun slots =>
    setDuty p ⟨0, 0⟩ { s with slots := slots, live := s.live + 1 }

/-- UNREGISTER's locate, shift and clear: the lowest-index live slot holding the pin goes, the slots after it move left
by one, the last slot is cleared; `none` when no live slot holds the pin (R81). -/
def releaseSlot (p : Pin) : List Slot → Option (List Slot)
  | [] => none
  | x :: xs =>
    if x.valid && decide (x.pin = p) then some (xs ++ [Slot.empty]) else (releaseSlot p xs).map (x :: ·)

/-- What UNREGISTER leaves and returns (R80). -/
structure Unregistered where
  state : State
  found : Bool
  empty : Bool

/-- UNREGISTER (R81). The duty pair of the removed pin is kept, and its level is not touched (R82 (f)). -/
def unregister (p : Pin) (s : State) : Unregistered :=
  match releaseSlot p s.slots with
  | none => ⟨s, false, decide (s.live = 0)⟩
  | some slots => ⟨{ s with slots := slots, live := s.live - 1 }, true, decide (s.live - 1 = 0)⟩

/-- The pins the dispatch iteration visits, in its order: it stops at the first empty slot (R84). -/
def dispatchPins : List Slot → List Pin
  | [] => []
  | x :: xs => if x.valid then x.pin :: dispatchPins xs else []

end Sys2Proof.Machine
end

