-- ==== Sys2Proof/Machine/TickRate.lean ====
section
/-! DEFINITION. The Tick-Rate Programmer: the micro-operation CONFIGURE (spec/40_tick_rate_programmer.md). -/

namespace Sys2Proof.Machine

/-- The range check: 1 ≤ frequencyHz ≤ `MAX_FREQUENCY`, unsigned (R68). -/
def inRange (c : Config) (f : Freq) : Bool := decide (f.toNat ≠ 0) && decide (f.toNat ≤ c.maxFrequency)

/-- `cycles = (F_CLK div (frequencyHz × 256)) div 2`, both divisions floor divisions (R70; log entry 7). Exact: no
intermediate can leave 32 bits (R75). -/
def cycleCount (fClk f : Nat) : Nat := fClk / (f * 256) / 2

/-- The walk of R71: the first entry whose shifted cycle count is below `RES`, with that count. -/
def prescaleWalk (res cycles : Nat) : List PrescaleEntry → Option (BitVec 8 × Nat)
  | [] => none
  | e :: es =>
    if cycles >>> e.shift < res then some (e.sel, cycles >>> e.shift) else prescaleWalk res cycles es

/-- The saturating choice of R72: the last entry's selection code and `RES − 1`. An empty table is no parameter set of
R7; the code is then 0 (log entry 13). -/
def prescaleSaturated (c : Config) : BitVec 8 × Nat :=
  (((c.prescale.map PrescaleEntry.sel).getLast?).getD 0, c.res - 1)

/-- The selection code and reload value for a cycle count (R71, R72). -/
def prescaleSelect (c : Config) (cycles : Nat) : BitVec 8 × Nat :=
  (prescaleWalk c.res cycles c.prescale).getD (prescaleSaturated c)

/-- The writes and events of R73, in its order. `ARMED` is left as it is. -/
def programTimer (sel : BitVec 8) (reload : BitVec 16) (s : State) : State :=
  let s := { s with tcfgSel := sel, tcfgReload := reload }
  let s := { emit (.configureRate sel reload) s with run := true }
  let s := emit .resetCounter s
  { s with cycle := 0, init := true }

/-- CONFIGURE (R74). `none` is the source's false: nothing is changed (R68). Once `INIT` is 1 it is a no-op that
succeeds (R69). -/
def configure (f : Freq) (s : State) : Option State :=
  if !inRange s.config f then none
  else if s.init then some s
  else
    let choice := prescaleSelect s.config (cycleCount s.config.fClk f.toNat)
    some (programTimer choice.1 (BitVec.ofNat 16 choice.2) s)

end Sys2Proof.Machine
end

