-- ==== Sys2Proof/Machine/Lifecycle.lean ====
section
/-! DEFINITION. The host commands (spec/43_channel_lifecycle.md): one definition for each, over the micro-operations. -/

namespace Sys2Proof.Machine

/-- REGISTER and its report, the last part of INIT and the whole of ENABLE (R103, R105). -/
def registerAndReport (p : Pin) (s : State) : State :=
  match register p s with
  | some s' => setResult true false 0 s'
  | none => raise .registryFull s

/-- `emit ARM_INTERRUPT; ARMED <- 1` (R103). -/
def armTick (s : State) : State := { emit .armInterrupt s with armed := true }

/-- TEARDOWN (R107): disarm, then halt. -/
def teardown (s : State) : State :=
  let s := { emit .disarmInterrupt s with armed := false }
  { emit .haltCounting s with run := false }

/-- UNREGISTER, the TEARDOWN of an empty table, and the report, shared by DISABLE and DESTROY (R106, R109). -/
def removeAndReport (p : Pin) (s : State) : State :=
  let u := unregister p s
  setResult u.found u.empty 0 (if u.empty then teardown u.state else u.state)

/-- INIT up to its REGISTER, for a frequency that has passed the range check: CONFIGURE, the arming by the first in-range
INIT, and the pin mode (R103). -/
def prepareChannel (p : Pin) (f : Freq) (s : State) : State :=
  let configured := (configure f s).getD s
  let armed := if s.init then configured else armTick configured
  emit (.setOutputMode p) armed

/-- NOP (R102). -/
def execNop (s : State) : Host.Outcome State Fault Refusal := .next s

/-- INIT p, f (R103). -/
def execInit (p : Pin) (f : Freq) (s : State) : Host.Outcome State Fault Refusal :=
  if !inRange s.config f then .next (raise .frequencyOutOfRange s)
  else .next (registerAndReport p (prepareChannel p f s))

/-- ENABLE p (R105). -/
def execEnable (p : Pin) (s : State) : Host.Outcome State Fault Refusal := .next (registerAndReport p s)

/-- DISABLE p (R106). -/
def execDisable (p : Pin) (s : State) : Host.Outcome State Fault Refusal := .next (removeAndReport p s)

/-- WRITE p, d (R108). -/
def execWrite (p : Pin) (d : Duty) (s : State) : Host.Outcome State Fault Refusal :=
  .next (setResult true false 0 (setPending p d s))

/-- DESTROY p: the effect of DISABLE (R109). -/
def execDestroy (p : Pin) (s : State) : Host.Outcome State Fault Refusal := .next (removeAndReport p s)

end Sys2Proof.Machine
end

