-- ==== Sys2Proof/Machine/Servicer.lean ====
section
/-! DEFINITION. The Cycle Servicer: the TICK event and the micro-operation SERVICE (spec/42_cycle_servicer.md). -/

namespace Sys2Proof.Machine

/-- One visit of SERVICE's loop, to the pin of a live slot: the commit branch (R91), the falling-edge branch (R92) or no
transition (R93). -/
def servicePin (p : Pin) (s : State) : State :=
  if s.cycle = 0 then
    let s := commitDuty p s
    emit (.setPinLevel p (decide ((dutyAt s p).c ≠ 0))) s
  else if s.cycle = (dutyAt s p).c ∧ (dutyAt s p).c ≠ 255 then
    emit (.setPinLevel p false) s
  else s

/-- The visits of one tick, in order. -/
def servicePins : List Pin → State → State
  | [], s => s
  | p :: ps, s => servicePins ps (servicePin p s)

/-- `CYCLE <- (CYCLE + 1) mod 256` (R94). -/
def advanceCycle (s : State) : State := { s with cycle := s.cycle + 1 }

/-- SERVICE (R90): every pin of the dispatch iteration, then the increment. -/
def service (s : State) : State := advanceCycle (servicePins (dispatchPins s.slots) s)

/-- TICK (R89): SERVICE when `ARMED` and `RUN` are both 1, and otherwise nothing at all. -/
def execTick (s : State) : Host.Outcome State Fault Refusal :=
  if s.armed && s.run then .next (service s) else .next s

end Sys2Proof.Machine
end

