-- ==== Sys2Proof/Machine/Dispatch.lean ====
section
/-! DEFINITION. The dispatch: one arm per instruction of spec/opcode_table.json. -/

namespace Sys2Proof.Machine

def exec (i : Instr) (s : State) : Host.Outcome State Fault Refusal :=
  match i with
  | .nop => Sys2Proof.Machine.execNop s
  | .init p f => Sys2Proof.Machine.execInit p f s
  | .enable p => Sys2Proof.Machine.execEnable p s
  | .disable p => Sys2Proof.Machine.execDisable p s
  | .write p d => Sys2Proof.Machine.execWrite p d s
  | .destroy p => Sys2Proof.Machine.execDestroy p s
  | .tick => Sys2Proof.Machine.execTick s

end Sys2Proof.Machine
end

