-- ==== Sys2Proof/Machine/Window.lean ====
section
/-! DEFINITION. The register window as the host reads it (spec/10_state.md rule R27, spec/20_memory.md rules R38, R39). -/

namespace Sys2Proof.Machine

/-- A flag as the bit of a register. -/
def bit (b : Bool) : Nat := if b then 1 else 0

/-- The number `RESULT` reads as (R39). -/
def resultNat (s : State) : Nat := (s.result.err.toNat <<< 4) + (bit s.result.empty <<< 1) + bit s.result.ok

/-- The number `STATUS` reads as (R39). -/
def statusNat (s : State) : Nat := (s.live.toNat <<< 8) + (bit s.run <<< 2) + (bit s.armed <<< 1) + bit s.init

/-- The number `TCFG` reads as (R39). -/
def tcfgNat (s : State) : Nat := (s.tcfgSel.toNat <<< 16) + s.tcfgReload.toNat

/-- The number `PARAM` reads as (R39). -/
def paramNat (s : State) : Nat := (s.config.maxFrequency <<< 16) + s.config.maxChannels

/-- The number `SLOT[i]` reads as (R39). The table has `MAX_CHANNELS` slots in every reachable state; past its end the
read is that of an unmapped word (log entry 12). -/
def slotNat (s : State) (i : Nat) : Nat :=
  match s.slots[i]? with
  | some x => (bit x.valid <<< 31) + x.pin.toNat
  | none => 0

/-- The number `DUTY[p]` reads as (R39). -/
def dutyNat (s : State) (p : Nat) : Nat :=
  match s.duty[p]? with
  | some d => (d.p.toNat <<< 8) + d.c.toNat
  | none => 0

/-- `RegRead(a)`, row by row of R39. `CMD` is write-only and reads 0; unmapped words read 0. -/
def regRead (a : WordAddr) (s : State) : Word :=
  let n := a.toNat
  BitVec.ofNat 32 <|
    if n = 0 then 0
    else if n = 1 then resultNat s
    else if n = 2 then statusNat s
    else if n = 3 then s.cycle.toNat
    else if n = 4 then tcfgNat s
    else if n = 5 then paramNat s
    else if 16 ≤ n ∧ n < 16 + s.config.maxChannels then slotNat s (n - 16)
    else if 256 ≤ n then dutyNat s (n - 256)
    else 0

/-- The word address of a register (R27, R38). -/
def regAddr : RegName → Nat
  | .cmd => 0
  | .result => 1
  | .status => 2
  | .cycle => 3
  | .tcfg => 4
  | .param => 5
  | .slot i => 16 + i
  | .duty p => 256 + p

end Sys2Proof.Machine
end

