-- ==== Sys2Proof/Machine/HostPort.lean ====
section
/-! DEFINITION. The ports: host transactions (spec/20_memory.md), `tick_in` (spec/30_encoding.md rule R62), `rst`
(spec/70_reset_and_hazards.md rule R133), the platform bridge (rules R44, R45), and the order of a pulse and a transaction
that meet (spec/60_exceptions.md rules R120, R121). -/

namespace Sys2Proof.Machine

/-- What a signal does: the instruction it decodes to runs; an illegal word on `CMD` raises `IllegalCommand` and nothing
else happens (R57, R101, R116); `tick_in` = 0 is no event (R62). -/
def runSignal (x : Signal) (s : State) : Host.Outcome State Fault Refusal :=
  match decode x with
  | .ok i => exec i s
  | .error .noTick => .next s
  | .error _ => .next (raise .illegalCommand s)

/-- `RegWrite(a, v)`: word 0 is `CMD`; every other write is ignored (R41, R43). -/
def regWrite (a : WordAddr) (v : Word) (s : State) : Host.Outcome State Fault Refusal :=
  if a = 0 then runSignal (.cmdWord v) s else .next s

/-- One host transaction. A read answers on the port and changes no state of the block (R39). -/
def hostStep (t : HostTxn) (s : State) : Host.Outcome State Fault Refusal :=
  match t with
  | .read a => .next { s with replies := s.replies ++ [⟨a, regRead a s⟩] }
  | .write a v => regWrite a v s

/-- Puts an input back in front of the others: the next step takes it. -/
def holdInput (i : Input) (s : State) : State := { s with inputs := i :: s.inputs }

/-- How many bytes a bridge access moves. -/
def bridgeSize : BridgeAccess → Nat
  | .read size => size
  | .write bytes => bytes.length

/-- A bridge access as the port transaction it is turned into: only an access of exactly 4 bytes at a byte offset
divisible by 4 is one, with little-endian lanes (R44, R45). -/
def bridgeTxn (offset : ByteOffset) (x : BridgeAccess) : Option HostTxn :=
  if offset.extractLsb' 0 2 ≠ 0 then none
  else
    let a : WordAddr := offset.extractLsb' 2 9
    match x with
    | .read size => if size = 4 then some (.read a) else none
    | .write [b0, b1, b2, b3] => some (.write a (wordOfLanes b0 b1 b2 b3))
    | .write _ => none

/-- The step one input causes, the input already taken from the queue. A pulse presented with a host transaction is the
earlier step (R121); a pulse that arrives during a transaction's step is held and is the next step (R120). -/
def serveInput (i : Input) (s : State) : Host.Outcome State Fault Refusal :=
  match i with
  | .host t => hostStep t s
  | .tickIn v => runSignal (.tickIn v) s
  | .rst => .next (resetBlock s)
  | .hostWithTick t => runSignal (.tickIn 1) (holdInput (.host t) s)
  | .tickDuringHost t => hostStep t (holdInput (.tickIn 1) s)
  | .tickDuringTick => .refused .tickOverrun
  | .bridge offset x =>
    match bridgeTxn offset x with
    | some t => hostStep t s
    | none => .refused .misalignedAccess

/-- The input that presents a signal: a command word is a host write to `CMD` (R41), word address 0 (R38). -/
def inputOfSignal : Signal → Input
  | .cmdWord w => .host (.write 0 w)
  | .tickIn v => .tickIn v

end Sys2Proof.Machine
end

