-- ==== Sys2Proof/Machine/Step.lean ====
section
/-! DEFINITION. One step of the machine, and how the host places an instruction before it. The block fetches nothing: the
outside world supplies each operation, in one total order (spec/10_state.md rule R30, spec/20_memory.md rule R47). -/

namespace Sys2Proof.Machine

/-- One step (R10): the next input is taken and served. With nothing presented the block is idle and nothing changes
("between steps it is idle", R155). -/
def step (s : State) : Host.Outcome State Fault Refusal :=
  match s.inputs with
  | [] => .next s
  | i :: rest => serveInput i { s with inputs := rest }

/-- The state in which the given instruction is presented next: the input that carries it stands in front of the queue,
and nothing else changes (log entry 3). -/
def State.withFetchWord (s : State) (nbits w : Nat) : State :=
  { s with inputs := inputOfSignal (signalOfTable nbits w) :: s.inputs }

end Sys2Proof.Machine
end

