-- ==== Sys2Proof/WellFormed.lean ====
section
/-! DEFINITION. Well-formedness: the constraints on the parameters (spec/00_scope.md rule R7) and on the operands of an
assembler line (spec/30_encoding.md rule R64). An `Instr` needs no check: its operands have the widths of the fields. -/

namespace Sys2Proof

/-- 1 ≤ `MAX_CHANNELS` ≤ 16 (R7). -/
abbrev Config.ChannelsOk (c : Config) : Prop := 1 ≤ c.maxChannels ∧ c.maxChannels ≤ 16

/-- 1 ≤ `MAX_FREQUENCY` ≤ 65535 (R7). -/
abbrev Config.FrequencyOk (c : Config) : Prop := 1 ≤ c.maxFrequency ∧ c.maxFrequency ≤ 65535

/-- 1 ≤ `F_CLK` < 2^32 (R7). -/
abbrev Config.ClockOk (c : Config) : Prop := 1 ≤ c.fClk ∧ c.fClk < 4294967296

/-- 2 ≤ `RES` ≤ 65536 (R7). -/
abbrev Config.ResolutionOk (c : Config) : Prop := 2 ≤ c.res ∧ c.res ≤ 65536

/-- `PRESCALE` has at least one entry (R7). -/
abbrev Config.PrescaleNonempty (c : Config) : Prop := c.prescale ≠ []

/-- The shifts of `PRESCALE` rise strictly (R7). -/
abbrev Config.PrescaleRising (c : Config) : Prop := (c.prescale.map PrescaleEntry.shift).Pairwise (· < ·)

/-- Every shift of `PRESCALE` is at most 31 (R7). -/
abbrev Config.PrescaleBounded (c : Config) : Prop := ∀ e ∈ c.prescale, e.shift ≤ 31

/-- All the constraints of R7 together. -/
abbrev Config.Valid (c : Config) : Prop :=
  c.ChannelsOk ∧ c.FrequencyOk ∧ c.ClockOk ∧ c.ResolutionOk ∧
    c.PrescaleNonempty ∧ c.PrescaleRising ∧ c.PrescaleBounded

/-- A register name that the window of an instance has (R27): `SLOT[i]` for i < `MAX_CHANNELS`, `DUTY[p]` for p ≤ 255. -/
def RegName.wellFormed (c : Config) : RegName → Bool
  | .slot i => decide (i < c.maxChannels)
  | .duty p => decide (p ≤ 255)
  | .cmd => true
  | .result => true
  | .status => true
  | .cycle => true
  | .tcfg => true
  | .param => true

/-- "The assembler refuses `p` > 255, `f` > 65535, `d` > 255" (R64). -/
def AsmLine.wellFormed (c : Config) : AsmLine → Bool
  | .nop => true
  | .init p f => decide (p ≤ 255) && decide (f ≤ 65535)
  | .initDefault p => decide (p ≤ 255) && decide (c.maxFrequency ≤ 65535)
  | .enable p => decide (p ≤ 255)
  | .disable p => decide (p ≤ 255)
  | .write p d => decide (p ≤ 255) && decide (d ≤ 255)
  | .destroy p => decide (p ≤ 255)
  | .ticks _ => true
  | .read r => r.wellFormed c
  | .reset => true

end Sys2Proof
end

