-- ==== Sys2Proof/Machine/Assembler.lean ====
section
/-! DEFINITION. The assembler syntax of spec/30_encoding.md rules R64 and R65: the items a line puts on the ports, and the
reading of a line of text. -/

namespace Sys2Proof.Machine

/-- The input that presents one instruction. -/
def inputOfInstr (i : Instr) : Input := inputOfSignal (encode i)

/-- The items of an accepted line, operands in range. -/
def asmItems (c : Config) : AsmLine → List Input
  | .nop => [inputOfInstr .nop]
  | .init p f => [inputOfInstr (.init (BitVec.ofNat 8 p) (BitVec.ofNat 16 f))]
  | .initDefault p => [inputOfInstr (.init (BitVec.ofNat 8 p) (BitVec.ofNat 16 c.maxFrequency))]
  | .enable p => [inputOfInstr (.enable (BitVec.ofNat 8 p))]
  | .disable p => [inputOfInstr (.disable (BitVec.ofNat 8 p))]
  | .write p d => [inputOfInstr (.write (BitVec.ofNat 8 p) (BitVec.ofNat 8 d))]
  | .destroy p => [inputOfInstr (.destroy (BitVec.ofNat 8 p))]
  | .ticks n => List.replicate n (inputOfInstr .tick)
  | .read r => [.host (.read (BitVec.ofNat 9 (regAddr r)))]
  | .reset => [.rst]

/-- The assembler: `none` is a refused line (R64). -/
def assemble (c : Config) (l : AsmLine) : Option (List Input) :=
  if l.wellFormed c then some (asmItems c l) else none

/-- The value of a digit, in base 10 or 16. -/
def digitValue (base : Nat) (ch : Char) : Option Nat :=
  let n := ch.toNat
  let v := if 48 ≤ n ∧ n ≤ 57 then n - 48
    else if 97 ≤ n ∧ n ≤ 102 then n - 87
    else if 65 ≤ n ∧ n ≤ 70 then n - 55
    else 16
  if v < base then some v else none

/-- A run of digits, most significant first. -/
def parseDigits (base acc : Nat) : List Char → Option Nat
  | [] => some acc
  | ch :: rest =>
    match digitValue base ch with
    | some v => parseDigits base (acc * base + v) rest
    | none => none

/-- A decimal or `0x` hexadecimal numeral (R64). -/
def parseNumeral : List Char → Option Nat
  | [] => none
  | '0' :: 'x' :: ch :: rest => parseDigits 16 0 (ch :: rest)
  | ch :: rest => parseDigits 10 0 (ch :: rest)

/-- The text up to the first occurrence of a character, and what follows it. -/
def splitAt1 (sep : Char) : List Char → List Char × List Char
  | [] => ([], [])
  | ch :: rest =>
    if ch = sep then ([], rest)
    else ((ch :: (splitAt1 sep rest).1), (splitAt1 sep rest).2)

/-- The text without its blanks. -/
def noBlanks (cs : List Char) : List Char := cs.filter (fun ch => !decide (ch = ' '))

/-- A numeral in square brackets, closing the text. -/
def parseIndex (cs : List Char) : Option Nat :=
  match cs.getLast? with
  | some ']' => parseNumeral cs.dropLast
  | _ => none

/-- A register name (R27, R64). -/
def parseReg (cs : List Char) : Option RegName :=
  if cs = ['C', 'M', 'D'] then some .cmd
  else if cs = ['R', 'E', 'S', 'U', 'L', 'T'] then some .result
  else if cs = ['S', 'T', 'A', 'T', 'U', 'S'] then some .status
  else if cs = ['C', 'Y', 'C', 'L', 'E'] then some .cycle
  else if cs = ['T', 'C', 'F', 'G'] then some .tcfg
  else if cs = ['P', 'A', 'R', 'A', 'M'] then some .param
  else match splitAt1 '[' cs with
    | (['S', 'L', 'O', 'T'], rest) => (parseIndex rest).map .slot
    | (['D', 'U', 'T', 'Y'], rest) => (parseIndex rest).map .duty
    | _ => none

/-- Two numerals separated by a comma. -/
def parsePair (cs : List Char) : Option (Nat × Nat) :=
  match parseNumeral (splitAt1 ',' cs).1, parseNumeral (splitAt1 ',' cs).2 with
  | some a, some b => some (a, b)
  | _, _ => none

/-- A line of text: a mnemonic, one blank, and the operands (R64; blanks among the operands do not matter, log entry
18). -/
def parseLine (text : String) : Option AsmLine :=
  let mnemonic := (splitAt1 ' ' text.toList).1
  let ops := noBlanks (splitAt1 ' ' text.toList).2
  if mnemonic = ['N', 'O', 'P'] then (if ops = [] then some .nop else none)
  else if mnemonic = ['R', 'E', 'S', 'E', 'T'] then (if ops = [] then some .reset else none)
  else if mnemonic = ['T', 'I', 'C', 'K'] then
    (if ops = [] then some (.ticks 1) else (parseNumeral ops).map .ticks)
  else if mnemonic = ['I', 'N', 'I', 'T'] then
    match parsePair ops with
    | some (p, f) => some (.init p f)
    | none => (parseNumeral ops).map .initDefault
  else if mnemonic = ['E', 'N', 'A', 'B', 'L', 'E'] then (parseNumeral ops).map .enable
  else if mnemonic = ['D', 'I', 'S', 'A', 'B', 'L', 'E'] then (parseNumeral ops).map .disable
  else if mnemonic = ['W', 'R', 'I', 'T', 'E'] then (parsePair ops).map (fun x => .write x.1 x.2)
  else if mnemonic = ['D', 'E', 'S', 'T', 'R', 'O', 'Y'] then (parseNumeral ops).map .destroy
  else if mnemonic = ['R', 'E', 'A', 'D'] then (parseReg ops).map .read
  else none

end Sys2Proof.Machine
end

