-- ==== Sys2Proof/Machine/Events.lean ====
section
/-! DEFINITION. The event words of the output port (spec/30_encoding.md rules R60, R61) and their spelling in an event
trace (R66). -/

namespace Sys2Proof.Machine

/-- `KIND`, bits 31:28 (R61). -/
def eventKind : Event → BitVec 4
  | .setPinLevel _ _ => 1
  | .setOutputMode _ => 2
  | .configureRate _ _ => 3
  | .resetCounter => 4
  | .armInterrupt => 5
  | .disarmInterrupt => 6
  | .haltCounting => 7

/-- `EPIN` or `ESEL`, bits 23:16 (R60). -/
def eventSelector : Event → BitVec 8
  | .setPinLevel p _ => p
  | .setOutputMode p => p
  | .configureRate sel _ => sel
  | .resetCounter => 0
  | .armInterrupt => 0
  | .disarmInterrupt => 0
  | .haltCounting => 0

/-- `EARG`, bits 15:0 (R60). -/
def eventArg : Event → BitVec 16
  | .setPinLevel _ level => if level then 1 else 0
  | .setOutputMode _ => 0
  | .configureRate _ reload => reload
  | .resetCounter => 0
  | .armInterrupt => 0
  | .disarmInterrupt => 0
  | .haltCounting => 0

/-- The 32-bit word the port carries for an event (R60). -/
def eventWord (e : Event) : Word := packFields (eventKind e) (eventSelector e) (eventArg e)

/-- The event as an event trace spells it (R66). -/
def eventText : Event → String
  | .setPinLevel p level => "PIN(" ++ toString p.toNat ++ ")=" ++ (if level then "1" else "0")
  | .setOutputMode p => "MODE(" ++ toString p.toNat ++ ")"
  | .configureRate sel reload => "RATE(" ++ toString sel.toNat ++ "," ++ toString reload.toNat ++ ")"
  | .resetCounter => "RSTCNT"
  | .armInterrupt => "ARM"
  | .disarmInterrupt => "DISARM"
  | .haltCounting => "HALT"

end Sys2Proof.Machine
end

