-- ==== Sys2Proof/Machine/Observe.lean ====
section
/-! DEFINITION. The environment shadow: what an observer of the event trace knows of the collaborators
(spec/10_state.md rule R26, spec/60_exceptions.md rules R119, R128). None of it is block state and no step reads it. -/

namespace Sys2Proof.Machine

/-- What one event tells of the level of pin `p`, given what was known before it. -/
def levelAfter (p : Pin) (known : Option Bool) : Event → Option Bool
  | .setPinLevel q level => if q = p then some level else known
  | .setOutputMode _ => known
  | .configureRate _ _ => known
  | .resetCounter => known
  | .armInterrupt => known
  | .disarmInterrupt => known
  | .haltCounting => known

/-- `PINLVL(p)`: the level of the most recent `SET_PIN_LEVEL(p, level)` of the trace; `none` is `unknown` (R26). -/
def pinLevel (trace : List Event) (p : Pin) : Option Bool := trace.foldl (levelAfter p) none

/-- `PINMODE(p) = output`: the trace contains a `SET_OUTPUT_MODE(p)`; otherwise the mode is `unknown` (R26). -/
def pinIsOutput (trace : List Event) (p : Pin) : Bool := decide (Event.setOutputMode p ∈ trace)

/-- Whether the tick source's interrupt is armed, after one more event (R61, R119). -/
def armedAfter (known : Bool) : Event → Bool
  | .setPinLevel _ _ => known
  | .setOutputMode _ => known
  | .configureRate _ _ => known
  | .resetCounter => known
  | .armInterrupt => true
  | .disarmInterrupt => false
  | .haltCounting => known

/-- Whether the tick source is counting, after one more event (R61, R119, D34). -/
def countingAfter (known : Bool) : Event → Bool
  | .setPinLevel _ _ => known
  | .setOutputMode _ => known
  | .configureRate _ _ => true
  | .resetCounter => known
  | .armInterrupt => known
  | .disarmInterrupt => known
  | .haltCounting => false

/-- The tick source was last told to interrupt, by an event since the last reset (R23, R119). DESIGN CHOICE: with no such
event yet the answer is `false`, the reset value of `ARMED`, although R136 and U8 leave open whether the source is armed
after a reset of the block alone (log entry 23). -/
def sourceArmed (trace : List Event) : Bool := trace.foldl armedAfter false

/-- The tick source was last told to count, by an event since the last reset (R23, R119). DESIGN CHOICE: with no such event
yet the answer is `false`, the reset value of `RUN`, although R136 and U8 leave open whether the source is counting after a
reset of the block alone (log entry 23). -/
def sourceCounting (trace : List Event) : Bool := trace.foldl countingAfter false

/-- Clause (a) of the environment contract of the tick source: when it may deliver TICKs (R119). The block does not check
it; a stray TICK is ignored (R89). Right after a reset it is `false`: the contract then expects none, while a source that
was not reset with the block may still deliver them (R136; log entry 23). -/
def tickExpected (trace : List Event) : Bool := sourceArmed trace && sourceCounting trace

end Sys2Proof.Machine
end

