-- ==== Sys2Proof/Safety.lean ====
section
/-! DEFINITION. The terms the claims are made in: the invariant of the reachable states (spec/10_state.md rules R18, R19,
R28, R36), the agreement of the shadow bits with the event trace (R23), the inputs that never stop the machine (R45, R118,
R124), and the prescaler choice in the words of the rules R71 and R72. -/

namespace Sys2Proof.Machine

/-- The pins of the live slots, in slot order (R12 "live pin"). -/
def livePins (s : State) : List Pin := (s.slots.filter Slot.valid).map Slot.pin

/-- R18: `SLOT[i].VALID = 1` if and only if i < `LIVE`. -/
abbrev PrefixLive (s : State) : Prop :=
  ∀ i (h : i < s.slots.length), (s.slots[i]'h).valid = true ↔ i < s.live.toNat

/-- R36 (c): before the first in-range INIT the timer state is as reset leaves it. -/
abbrev TimerUntouched (s : State) : Prop :=
  s.armed = false ∧ s.run = false ∧ s.tcfgSel = 0 ∧ s.tcfgReload = 0 ∧ s.cycle = 0

/-- The invariant of every reachable state. -/
structure BlockInv (s : State) : Prop where
  /-- The parameters meet R7. -/
  config_valid : s.config.Valid
  /-- The table has `MAX_CHANNELS` slots (R17). -/
  slots_sized : s.slots.length = s.config.maxChannels
  /-- R36 (a). -/
  prefix_live : PrefixLive s
  /-- R36 (b). -/
  live_count : s.live.toNat = s.slots.countP Slot.valid ∧ s.live.toNat ≤ s.config.maxChannels
  /-- R36 (c). -/
  untouched : s.init = false → TimerUntouched s
  /-- R36 (d). -/
  armed_run : s.armed = s.run
  /-- R36 (e). -/
  armed_init : s.armed = true → s.init = true
  /-- R36 (g). -/
  empty_pin : ∀ x ∈ s.slots, x.valid = false → x.pin = 0
  /-- R28: `RESULT.ERR` ∈ {0, 1, 2, 3}. -/
  err_legal : s.result.err.toNat ≤ 3
  /-- R28: `TCFG.SEL` is 0 or one of the selection codes. -/
  sel_legal : s.tcfgSel = 0 ∨ ∃ e ∈ s.config.prescale, e.sel = s.tcfgSel
  /-- R28: `TCFG.RELOAD` < `RES`. -/
  reload_legal : s.tcfgReload.toNat < s.config.res

/-- R23: `ARMED` and `RUN` are what the block last told the tick source. -/
abbrev ShadowAgrees (s : State) : Prop :=
  s.armed = sourceArmed s.trace ∧ s.run = sourceCounting s.trace

/-- After a teardown: initialised once, disarmed and halted (R139). -/
abbrev TornDown (s : State) : Prop := s.init = true ∧ s.armed = false ∧ s.run = false

/-- An input that presents no access a bridge refuses (R45) and no overrun (R124). -/
def admissible : Input → Bool
  | .host _ => true
  | .tickIn _ => true
  | .rst => true
  | .hostWithTick _ => true
  | .tickDuringHost _ => true
  | .tickDuringTick => false
  | .bridge offset x => (bridgeTxn offset x).isSome

/-- An input that is not a reset. -/
def notReset : Input → Bool
  | .host _ => true
  | .tickIn _ => true
  | .rst => false
  | .hostWithTick _ => true
  | .tickDuringHost _ => true
  | .tickDuringTick => true
  | .bridge _ _ => true

/-- An event that drives a pin. -/
def drivesPin : Event → Bool
  | .setPinLevel _ _ => true
  | .setOutputMode _ => false
  | .configureRate _ _ => false
  | .resetCounter => false
  | .armInterrupt => false
  | .disarmInterrupt => false
  | .haltCounting => false

/-- An event that drives the given pin. -/
def drives (p : Pin) (e : Event) : Bool :=
  decide (e = .setPinLevel p true) || decide (e = .setPinLevel p false)

/-- A frequency in range, as numbers (R68). -/
abbrev FrequencyInRange (c : Config) (f : Freq) : Prop := 1 ≤ f.toNat ∧ f.toNat ≤ c.maxFrequency

/-- The signal a host transaction carries into the block: a write to `CMD` carries its word (R41). -/
def signalOfTxn : HostTxn → Option Signal
  | .read _ => none
  | .write a v => if a = 0 then some (.cmdWord v) else none

/-- The instruction a signal is, if it is one (R56, R62). -/
def instrOfSignal (x : Signal) : Option Instr :=
  match decode x with
  | .ok i => some i
  | .error _ => none

/-- The instruction the step that takes an input runs, if it runs one (R101, R120, R121). -/
def instrOfInput : Input → Option Instr
  | .host t => (signalOfTxn t).bind instrOfSignal
  | .tickIn v => instrOfSignal (.tickIn v)
  | .rst => none
  | .hostWithTick _ => some .tick
  | .tickDuringHost t => (signalOfTxn t).bind instrOfSignal
  | .tickDuringTick => none
  | .bridge offset x => ((bridgeTxn offset x).bind signalOfTxn).bind instrOfSignal

/-- The instruction the next step runs, if it runs one. -/
def nextInstr (s : State) : Option Instr := s.inputs.head?.bind instrOfInput

/-- The instruction registers the given pin, or unregisters it: an ENABLE or in-range INIT that finds a free slot (R86), a
DISABLE or DESTROY. -/
def reslots (p : Pin) (s : State) : Instr → Prop
  | .nop => False
  | .init q f => q = p ∧ FrequencyInRange s.config f ∧ s.live.toNat < s.config.maxChannels
  | .enable q => q = p ∧ s.live.toNat < s.config.maxChannels
  | .disable q => q = p
  | .write _ _ => False
  | .destroy q => q = p
  | .tick => False

/-- Inside a cycle, after tick `CYCLE` − 1: the given pin is live with committed duty d, its level is the one R96 and R97
give that tick, and each of its slots has emitted, since the trace drove the pin `base` times, the one event of the
boundary and, past a falling edge, a second. -/
structure OnWaveform (p : Pin) (d : Duty) (base : Nat) (s : State) : Prop where
  mid_cycle : s.cycle ≠ 0
  live : p ∈ livePins s
  committed : (dutyAt s p).c = d
  level : pinLevel s.trace p = some (decide (d = 255 ∨ s.cycle.toNat - 1 < d.toNat))
  events : s.trace.countP (drives p) =
    base + (livePins s).count p * (if d = 0 ∨ d = 255 ∨ s.cycle.toNat - 1 < d.toNat then 1 else 2)

/-- k steps, stopping at the first fault or refusal: `Host.Core.run` of this machine, over its own types. -/
def runSteps : Nat → State → Host.Outcome State Fault Refusal
  | 0, s => .next s
  | k + 1, s =>
    match step s with
    | .next t => runSteps k t
    | .fault r => .fault r
    | .refused r => .refused r

/-- R71 and R72 in their own words: the first entry of `PRESCALE` whose shifted cycle count is below `RES` and that
count; or, where no entry fits, the last entry and `RES − 1`. -/
inductive PrescaleChoice (c : Config) (cycles : Nat) : BitVec 8 → Nat → Prop where
  | fits (before : List PrescaleEntry) (e : PrescaleEntry) (after : List PrescaleEntry)
      (split : c.prescale = before ++ e :: after)
      (earlier : ∀ x ∈ before, c.res ≤ cycles / 2 ^ x.shift)
      (below : cycles / 2 ^ e.shift < c.res) : PrescaleChoice c cycles e.sel (cycles / 2 ^ e.shift)
  | saturates (before : List PrescaleEntry) (last : PrescaleEntry)
      (split : c.prescale = before ++ [last])
      (none_fits : ∀ x ∈ c.prescale, c.res ≤ cycles / 2 ^ x.shift) : PrescaleChoice c cycles last.sel (c.res - 1)

/-- A registry with a free slot, taken apart at its first empty slot (R77). -/
abbrev FirstEmpty (slots before : List Slot) (x : Slot) (after : List Slot) : Prop :=
  slots = before ++ x :: after ∧ (∀ y ∈ before, y.valid = true) ∧ x.valid = false

/-- A registry that holds a pin, taken apart at the lowest-index live slot holding it (R81). -/
abbrev FirstHolding (p : Pin) (slots before : List Slot) (x : Slot) (after : List Slot) : Prop :=
  slots = before ++ x :: after ∧ (∀ y ∈ before, ¬(y.valid = true ∧ y.pin = p)) ∧ x.valid = true ∧ x.pin = p

end Sys2Proof.Machine
end

