-- ==== Sys2Proof/Certificates/Slice0/Obligations.lean ====
section
/-! DEFINITION. The statements for the provers. Each is written from the numbered rules of spec/; a result statement gives
the whole next state, so it is its instruction's frame as well. -/

open Sys2Proof Sys2Proof.Machine

/-! ### Reset -/

/-- R134, R135: right after reset every state element of R35 is zero and the trace is empty. -/
def Obligations.ResetLeavesEverythingZero : Prop :=
  State.reset.slots.length = State.reset.config.maxChannels ∧
  (∀ x ∈ State.reset.slots, x.valid = false ∧ x.pin = 0) ∧
  State.reset.live = 0 ∧ State.reset.init = false ∧ State.reset.armed = false ∧ State.reset.run = false ∧
  State.reset.cycle = 0 ∧ State.reset.tcfgSel = 0 ∧ State.reset.tcfgReload = 0 ∧
  (∀ p, dutyAt State.reset p = ⟨0, 0⟩) ∧
  State.reset.result = ⟨false, false, 0⟩ ∧ State.reset.trace = []

/-- R35, last column: after reset every word of the window reads 0 but `PARAM`, which reads 0x012C0004 under `P0`. That
State.reset is an instance of `P0` is the model's choice (log entry 2). -/
def Obligations.ResetWindowReadsZero : Prop :=
  regRead 5 State.reset = 0x012C0004 ∧ ∀ a : WordAddr, a ≠ 5 → regRead a State.reset = 0

/-- R133 to R135: `rst` in any state gives every state element its reset value and empties the trace, in one step. -/
def Obligations.RstRestoresResetValues : Prop :=
  ∀ (s : State) (rest : List Input), s.inputs = .rst :: rest →
    ∃ t, step s = .next t ∧
      t.slots = List.replicate s.config.maxChannels ⟨false, 0⟩ ∧
      t.live = 0 ∧ t.init = false ∧ t.armed = false ∧ t.run = false ∧
      t.cycle = 0 ∧ t.tcfgSel = 0 ∧ t.tcfgReload = 0 ∧ (∀ p, dutyAt t p = ⟨0, 0⟩) ∧
      t.result = ⟨false, false, 0⟩ ∧ t.trace = []

/-! ### Encodings -/

/-- Decoding an encoded instruction gives it back, with every operand at every value. -/
def Obligations.DecodeOfEncodeIsTheInstruction : Prop :=
  ∀ i : Instr, decode (encode i) = .ok i

/-- A signal that decodes to an instruction is that instruction's encoding: no instruction has two encodings. -/
def Obligations.EncodeOfDecodeIsTheSignal : Prop :=
  ∀ (x : Signal) (i : Instr), decode x = .ok i → encode i = x

/-- R55, R56: a word is a command if and only if (word AND mask) = match, with the operands of R54; a word that meets no
row is illegal. -/
def Obligations.DecoderFollowsMatchAndMask : Prop :=
  ∀ w : Word,
    (decode (.cmdWord w) = .ok .nop ↔ w &&& 0xFFFFFFFF = 0x00000000) ∧
    (decode (.cmdWord w) = .ok (.init (w.extractLsb' 16 8) (w.extractLsb' 0 16)) ↔ w &&& 0xFF000000 = 0x10000000) ∧
    (decode (.cmdWord w) = .ok (.enable (w.extractLsb' 16 8)) ↔ w &&& 0xFF00FFFF = 0x20000000) ∧
    (decode (.cmdWord w) = .ok (.disable (w.extractLsb' 16 8)) ↔ w &&& 0xFF00FFFF = 0x30000000) ∧
    (decode (.cmdWord w) = .ok (.write (w.extractLsb' 16 8) (w.extractLsb' 0 8)) ↔
      w &&& 0xFF00FF00 = 0x40000000) ∧
    (decode (.cmdWord w) = .ok (.destroy (w.extractLsb' 16 8)) ↔ w &&& 0xFF00FFFF = 0x50000000) ∧
    ((∃ e, decode (.cmdWord w) = .error e) ↔
      w &&& 0xFFFFFFFF ≠ 0x00000000 ∧ w &&& 0xFF000000 ≠ 0x10000000 ∧ w &&& 0xFF00FFFF ≠ 0x20000000 ∧
      w &&& 0xFF00FFFF ≠ 0x30000000 ∧ w &&& 0xFF00FF00 ≠ 0x40000000 ∧ w &&& 0xFF00FFFF ≠ 0x50000000)

/-- R57, R116: which words are illegal, and what a write of one to `CMD` does: `RESULT` reads 0x30 and nothing else
changes. -/
def Obligations.IllegalWordsChangeOnlyResult : Prop :=
  ∀ w : Word,
    ((∃ e, decode (.cmdWord w) = .error e) ↔
      (6 ≤ (w.extractLsb' 28 4).toNat ∨ w.extractLsb' 24 4 ≠ 0 ∨
        (w.extractLsb' 28 4 ∈ [0, 2, 3, 5] ∧ w.extractLsb' 0 16 ≠ 0) ∨
        (w.extractLsb' 28 4 = 0 ∧ w.extractLsb' 16 8 ≠ 0) ∨
        (w.extractLsb' 28 4 = 4 ∧ w.extractLsb' 8 8 ≠ 0))) ∧
    ∀ (e : Illegal) (s : State) (rest : List Input), decode (.cmdWord w) = .error e →
      s.inputs = .host (.write 0 w) :: rest →
        step s = .next { s with inputs := rest, result := ⟨false, false, 3⟩ } ∧
          regRead 1 { s with inputs := rest, result := ⟨false, false, 3⟩ } = 0x00000030

/-- R58: of the 2^32 words, 16 843 521 are legal; every INIT word is, whatever its frequency. -/
def Obligations.LegalWordsAreCounted : Prop :=
  Nat.card { w : Word // ∃ i, decode (.cmdWord w) = .ok i } = 16843521 ∧
  ∀ (p : Pin) (f : Freq), decode (.cmdWord (BitVec.ofNat 32 (0x10000000 + p.toNat * 65536 + f.toNat))) = .ok (.init p f)

/-- A few words of the spec's own vectors, one of every family: the decoder reads them as the spec does. -/
def Obligations.SpecWordsDecode : Prop :=
  decode (.cmdWord 0x00000000) = .ok .nop ∧ decode (.cmdWord 0x1005012C) = .ok (.init 5 300) ∧
  decode (.cmdWord 0x20060000) = .ok (.enable 6) ∧ decode (.cmdWord 0x30050000) = .ok (.disable 5) ∧
  decode (.cmdWord 0x400500FF) = .ok (.write 5 255) ∧ decode (.cmdWord 0x50060000) = .ok (.destroy 6) ∧
  decode (.tickIn 1) = .ok .tick

/-- R60, R61: the event words, with every operand at every value, and which kinds appear. -/
def Obligations.EventWordsFollowTheFormat : Prop :=
  (∀ (p : Pin) (level : Bool), (eventWord (.setPinLevel p level)).toNat = 0x10000000 + p.toNat * 65536 + level.toNat) ∧
  (∀ p : Pin, (eventWord (.setOutputMode p)).toNat = 0x20000000 + p.toNat * 65536) ∧
  (∀ (sel : BitVec 8) (reload : BitVec 16),
    (eventWord (.configureRate sel reload)).toNat = 0x30000000 + sel.toNat * 65536 + reload.toNat) ∧
  eventWord .resetCounter = 0x40000000 ∧ eventWord .armInterrupt = 0x50000000 ∧
  eventWord .disarmInterrupt = 0x60000000 ∧ eventWord .haltCounting = 0x70000000 ∧
  ∀ e : Event, 1 ≤ ((eventWord e).extractLsb' 28 4).toNat ∧ ((eventWord e).extractLsb' 28 4).toNat ≤ 7 ∧
    (eventWord e).extractLsb' 24 4 = 0

/-- Two events with one word are one event: nothing of an event is lost on the port. -/
def Obligations.EventWordsAreDistinct : Prop :=
  ∀ e e' : Event, eventWord e = eventWord e' → e = e'

/-! ### Steps and ports -/

/-- A step runs the instruction that the presented signal decodes to: a word written to `CMD`, or a pulse on `tick_in`
(R41, R56, R62, R101). -/
def Obligations.StepRunsTheDecodedInstruction : Prop :=
  ∀ (s : State) (rest : List Input),
    (∀ (w : Word) (i : Instr), s.inputs = .host (.write 0 w) :: rest → decode (.cmdWord w) = .ok i →
      step s = exec i { s with inputs := rest }) ∧
    (∀ i : Instr, s.inputs = .tickIn 1 :: rest → decode (.tickIn 1) = .ok i → step s = exec i { s with inputs := rest }) ∧
    (s.inputs = .tickIn 0 :: rest → step s = .next { s with inputs := rest })

/-- The model's `withFetchWord` presents exactly the instruction a table row's bits decode to (log entries 3 and 9). -/
def Obligations.PlacedInstructionRunsNext : Prop :=
  ∀ (s : State) (nbits w : Nat) (i : Instr), decodeTableWord nbits w = some i →
    step (s.withFetchWord nbits w) = exec i s

/-- R39, R40: a host read answers `RegRead(a)` on the port, changes no state and emits no event. That the model keeps the
answers in a list is its own choice (log entry 4). -/
def Obligations.HostReadChangesNoState : Prop :=
  ∀ (s : State) (a : WordAddr) (rest : List Input), s.inputs = .host (.read a) :: rest →
    step s = .next { s with inputs := rest, replies := s.replies ++ [⟨a, regRead a s⟩] }

/-- R27, R39: what every word of the window reads as, field by field. -/
def Obligations.WindowReadsTheState : Prop :=
  ∀ (s : State) (a : WordAddr), s.config.Valid → s.slots.length = s.config.maxChannels →
    (a.toNat = 0 → regRead a s = 0) ∧
    (a.toNat = 1 →
      (regRead a s).extractLsb' 0 1 = BitVec.ofBool s.result.ok ∧
      (regRead a s).extractLsb' 1 1 = BitVec.ofBool s.result.empty ∧
      (regRead a s).extractLsb' 2 2 = 0 ∧ (regRead a s).extractLsb' 4 4 = s.result.err ∧
      (regRead a s).extractLsb' 8 24 = 0) ∧
    (a.toNat = 2 →
      (regRead a s).extractLsb' 0 1 = BitVec.ofBool s.init ∧
      (regRead a s).extractLsb' 1 1 = BitVec.ofBool s.armed ∧
      (regRead a s).extractLsb' 2 1 = BitVec.ofBool s.run ∧
      (regRead a s).extractLsb' 3 5 = 0 ∧ (regRead a s).extractLsb' 8 8 = s.live ∧
      (regRead a s).extractLsb' 16 16 = 0) ∧
    (a.toNat = 3 → (regRead a s).extractLsb' 0 8 = s.cycle ∧ (regRead a s).extractLsb' 8 24 = 0) ∧
    (a.toNat = 4 →
      (regRead a s).extractLsb' 0 16 = s.tcfgReload ∧ (regRead a s).extractLsb' 16 8 = s.tcfgSel ∧
      (regRead a s).extractLsb' 24 8 = 0) ∧
    (a.toNat = 5 →
      ((regRead a s).extractLsb' 0 8).toNat = s.config.maxChannels ∧ (regRead a s).extractLsb' 8 8 = 0 ∧
      ((regRead a s).extractLsb' 16 16).toNat = s.config.maxFrequency) ∧
    (∀ (i : Nat) (x : Slot), a.toNat = 16 + i → s.slots[i]? = some x →
      (regRead a s).extractLsb' 0 8 = x.pin ∧ (regRead a s).extractLsb' 8 23 = 0 ∧
      (regRead a s).extractLsb' 31 1 = BitVec.ofBool x.valid) ∧
    (∀ p : Pin, a.toNat = 256 + p.toNat →
      (regRead a s).extractLsb' 0 8 = (dutyAt s p).c ∧ (regRead a s).extractLsb' 8 8 = (dutyAt s p).p ∧
      (regRead a s).extractLsb' 16 16 = 0) ∧
    ((6 ≤ a.toNat ∧ a.toNat ≤ 15) ∨ (16 + s.config.maxChannels ≤ a.toNat ∧ a.toNat ≤ 255) → regRead a s = 0)

/-- R43: a host write to any word but `CMD` is ignored without error. -/
def Obligations.OnlyCmdIsWritable : Prop :=
  ∀ (s : State) (a : WordAddr) (v : Word) (rest : List Input), a ≠ 0 → s.inputs = .host (.write a v) :: rest →
    step s = .next { s with inputs := rest }

/-- R44, R45: a bridge turns an access of exactly 4 bytes at an offset divisible by 4 into the port transaction with
little-endian lanes (the byte at offset 4a + j is bits 8j + 7 to 8j), and refuses every other access. -/
def Obligations.BridgeTakesOnlyAlignedWords : Prop :=
  (∀ (w : Word) (j : Nat), j < 4 → ((lanesOfWord w)[j]?).map BitVec.toNat = some (w.toNat / 256 ^ j % 256)) ∧
  ∀ (s : State) (offset : ByteOffset) (x : BridgeAccess) (rest : List Input), s.inputs = .bridge offset x :: rest →
    (offset.toNat % 4 = 0 → x = .read 4 →
      step s = step { s with inputs := .host (.read (BitVec.ofNat 9 (offset.toNat / 4))) :: rest }) ∧
    (∀ w : Word, offset.toNat % 4 = 0 → x = .write (lanesOfWord w) →
      step s = step { s with inputs := .host (.write (BitVec.ofNat 9 (offset.toNat / 4)) w) :: rest }) ∧
    (∀ bytes : List Byte, x = .write bytes → bytes.length = 4 → ∃ w, bytes = lanesOfWord w) ∧
    (offset.toNat % 4 ≠ 0 ∨ bridgeSize x ≠ 4 → step s = .refused .misalignedAccess)

/-- R120, R121: a pulse presented with a host transaction is the earlier step and the transaction the later; a pulse that
arrives during a transaction's step is held and is the next step. -/
def Obligations.PulseAndTransactionAreOrdered : Prop :=
  ∀ (s : State) (x : HostTxn) (rest : List Input),
    (s.inputs = .hostWithTick x :: rest → step s = exec .tick { s with inputs := .host x :: rest }) ∧
    (s.inputs = .tickDuringHost x :: rest →
      step s = step { s with inputs := .host x :: .tickIn 1 :: rest })

/-- R118: nothing stops the block. A run of any length over admissible inputs (every command word, read, TICK and reset
is admissible) goes on, from every state. -/
def Obligations.AdmissibleRunsNeverStop : Prop :=
  ∀ (s : State) (k : Nat), (∀ i ∈ s.inputs, admissible i = true) → ∃ t, runSteps k s = .next t

/-! ### Tick-rate programmer -/

/-- R70, R75: the cycle count is two floor divisions, which are one; the divisor is not 0, no intermediate leaves its
bound, no shift reaches 32, and the reload value of a first in-range INIT is the choice of R71 and R72 and fits its
register. That the divisions are floor divisions is a choice, the spec's own (D10) and the model's: log entry 7. -/
def Obligations.CycleCountAndReloadAreExact : Prop :=
  ∀ (c : Config) (f : Freq), c.Valid → FrequencyInRange c f →
    cycleCount c.fClk f.toNat = c.fClk / (f.toNat * 256) / 2 ∧
    cycleCount c.fClk f.toNat = c.fClk / (f.toNat * 512) ∧
    f.toNat * 256 ≠ 0 ∧ f.toNat * 256 < 16777216 ∧ cycleCount c.fClk f.toNat < 2147483648 ∧
    (∀ e ∈ c.prescale, e.shift < 32) ∧
    (prescaleSelect c (cycleCount c.fClk f.toNat)).2 < c.res ∧
    (BitVec.ofNat 16 (prescaleSelect c (cycleCount c.fClk f.toNat)).2).toNat =
      (prescaleSelect c (cycleCount c.fClk f.toNat)).2 ∧
    PrescaleChoice c (cycleCount c.fClk f.toNat) (prescaleSelect c (cycleCount c.fClk f.toNat)).1
      (prescaleSelect c (cycleCount c.fClk f.toNat)).2

/-- R71, R72: the selection and reload the machine programs are the choice of the rules, and no other choice is. -/
def Obligations.PrescaleSelectIsTheChoice : Prop :=
  ∀ (c : Config) (cycles : Nat) (sel : BitVec 8) (reload : Nat), c.Valid →
    (PrescaleChoice c cycles sel reload ↔ prescaleSelect c cycles = (sel, reload))

/-! ### Commands -/

/-- R102: the word 0x00000000 is NOP; it writes no state, not even `RESULT`, and emits no event. -/
def Obligations.NopChangesNothing : Prop :=
  decode (.cmdWord 0x00000000) = .ok .nop ∧ ∀ s : State, exec .nop s = .next s

/-- R68, R103, R104 (a), R114: an INIT whose frequency is 0 or above the ceiling changes nothing but `RESULT`, whatever
the state. -/
def Obligations.InitOutOfRangeChangesOnlyResult : Prop :=
  ∀ (s : State) (p : Pin) (f : Freq), f.toNat = 0 ∨ s.config.maxFrequency < f.toNat →
    exec (.init p f) s = .next { s with result := ⟨false, false, 1⟩ }

/-- R103, R73, R78: the first in-range INIT with a free slot. The floor divisions of the cycle count are a choice: log entry
7. -/
def Obligations.FirstInitSetsUpAndRegisters : Prop :=
  ∀ (s : State) (p : Pin) (f : Freq) (sel : BitVec 8) (reload : Nat) (before after : List Slot) (x : Slot),
    s.init = false → FrequencyInRange s.config f →
    PrescaleChoice s.config (s.config.fClk / (f.toNat * 256) / 2) sel reload →
    FirstEmpty s.slots before x after →
    exec (.init p f) s = .next { s with
      tcfgSel := sel, tcfgReload := BitVec.ofNat 16 reload, run := true, cycle := 0, init := true, armed := true
      slots := before ++ ⟨true, p⟩ :: after, live := s.live + 1
      duty := s.duty.set p.toNat ⟨0, 0⟩ (pin_lt p)
      result := ⟨true, false, 0⟩
      trace := s.trace ++ [.configureRate sel (BitVec.ofNat 16 reload), .resetCounter, .armInterrupt, .setOutputMode p] }

/-- R103, R69, R140: a later in-range INIT with a free slot registers the pin and sets its mode; the timer state stays. -/
def Obligations.LaterInitOnlyRegisters : Prop :=
  ∀ (s : State) (p : Pin) (f : Freq) (before after : List Slot) (x : Slot),
    s.init = true → FrequencyInRange s.config f → FirstEmpty s.slots before x after →
    exec (.init p f) s = .next { s with
      slots := before ++ ⟨true, p⟩ :: after, live := s.live + 1
      duty := s.duty.set p.toNat ⟨0, 0⟩ (pin_lt p)
      result := ⟨true, false, 0⟩
      trace := s.trace ++ [.setOutputMode p] }

/-- R104 (c), R115: an in-range INIT on a full table reports `RegistryFull` after the timer setup (if first) and the pin
mode have been done (R73). The floor divisions of the first INIT's cycle count are a choice: log entry 7. -/
def Obligations.InitOnFullTableKeepsPartialState : Prop :=
  ∀ (s : State) (p : Pin) (f : Freq), FrequencyInRange s.config f → (∀ x ∈ s.slots, x.valid = true) →
    (s.init = true →
      exec (.init p f) s = .next { s with result := ⟨false, false, 2⟩, trace := s.trace ++ [.setOutputMode p] }) ∧
    (∀ (sel : BitVec 8) (reload : Nat), s.init = false →
      PrescaleChoice s.config (s.config.fClk / (f.toNat * 256) / 2) sel reload →
      exec (.init p f) s = .next { s with
        tcfgSel := sel, tcfgReload := BitVec.ofNat 16 reload, run := true, cycle := 0, init := true, armed := true
        result := ⟨false, false, 2⟩
        trace := s.trace ++
          [.configureRate sel (BitVec.ofNat 16 reload), .resetCounter, .armInterrupt, .setOutputMode p] })

/-- R105, R78, R79: ENABLE takes the first empty slot, live pin or not, and zeroes the pin's duty pair. -/
def Obligations.EnableTakesTheFirstEmptySlot : Prop :=
  ∀ (s : State) (p : Pin) (before after : List Slot) (x : Slot), FirstEmpty s.slots before x after →
    exec (.enable p) s = .next { s with
      slots := before ++ ⟨true, p⟩ :: after, live := s.live + 1
      duty := s.duty.set p.toNat ⟨0, 0⟩ (pin_lt p)
      result := ⟨true, false, 0⟩ }

/-- R105, R79 (a), R115: ENABLE on a full table changes nothing but `RESULT`. -/
def Obligations.EnableOnFullTableChangesOnlyResult : Prop :=
  ∀ (s : State) (p : Pin), (∀ x ∈ s.slots, x.valid = true) →
    exec (.enable p) s = .next { s with result := ⟨false, false, 2⟩ }

/-- R81, R106, R107, R109: DISABLE and DESTROY of a live pin remove its lowest-index slot, close the gap and clear the
last slot; a table that becomes empty is torn down, disarm before halt. -/
def Obligations.RemovalClosesTheGap : Prop :=
  ∀ (s : State) (p : Pin) (i : Instr) (before after : List Slot) (x : Slot),
    i = .disable p ∨ i = .destroy p → FirstHolding p s.slots before x after →
    (s.live - 1 ≠ 0 →
      exec i s = .next { s with
        slots := before ++ after ++ [⟨false, 0⟩], live := s.live - 1, result := ⟨true, false, 0⟩ }) ∧
    (s.live - 1 = 0 →
      exec i s = .next { s with
        slots := before ++ after ++ [⟨false, 0⟩], live := s.live - 1, armed := false, run := false
        result := ⟨true, true, 0⟩
        trace := s.trace ++ [.disarmInterrupt, .haltCounting] })

/-- R82 (a), R106, R109, R117: DISABLE and DESTROY of a pin no live slot holds; no error, and an empty table is torn down
again. -/
def Obligations.RemovalOfAnAbsentPin : Prop :=
  ∀ (s : State) (p : Pin) (i : Instr), i = .disable p ∨ i = .destroy p →
    (∀ x ∈ s.slots, ¬(x.valid = true ∧ x.pin = p)) →
    (s.live ≠ 0 → exec i s = .next { s with result := ⟨false, false, 0⟩ }) ∧
    (s.live = 0 →
      exec i s = .next { s with
        armed := false, run := false, result := ⟨false, true, 0⟩
        trace := s.trace ++ [.disarmInterrupt, .haltCounting] })

/-- R108: the word 0x40000000 + (p << 16) + d is WRITE p, d; it stores the pending duty of its pin, live or not, sets
`RESULT` to 0x00000001, and changes nothing else. -/
def Obligations.WriteStoresThePendingDuty : Prop :=
  ∀ (p : Pin) (d : Duty),
    decode (.cmdWord (BitVec.ofNat 32 (0x40000000 + p.toNat * 65536 + d.toNat))) = .ok (.write p d) ∧
    ∀ s : State, ∃ t, exec (.write p d) s = .next t ∧
      t = { s with duty := t.duty, result := ⟨true, false, 0⟩ } ∧ regRead 1 t = 0x00000001 ∧
      dutyAt t p = ⟨(dutyAt s p).c, d⟩ ∧ ∀ q, q ≠ p → dutyAt t q = dutyAt s q

/-! ### The tick -/

/-- R89: with `ARMED` or `RUN` 0 a TICK does nothing at all. -/
def Obligations.GatedTickDoesNothing : Prop :=
  ∀ s : State, s.armed = false ∨ s.run = false → exec .tick s = .next s

/-- R84, R90, R91, R94, R95: a serviced TICK at the cycle boundary commits every live slot's pending duty and drives its
pin, in slot order. -/
def Obligations.TickAtTheBoundaryCommits : Prop :=
  ∀ s : State, s.armed = true → s.run = true → s.cycle = 0 →
    ∃ t, exec .tick s = .next t ∧
      t = { s with cycle := 1, duty := t.duty, trace := t.trace } ∧
      (∀ q, dutyAt t q =
        if q ∈ (s.slots.takeWhile Slot.valid).map Slot.pin then ⟨(dutyAt s q).p, (dutyAt s q).p⟩ else dutyAt s q) ∧
      t.trace = s.trace ++ ((s.slots.takeWhile Slot.valid).map Slot.pin).map
        (fun q => Event.setPinLevel q (decide ((dutyAt s q).p ≠ 0)))

/-- R84, R90, R92, R93, R94, R95: a serviced TICK off the boundary writes nothing but `CYCLE` and lowers the live pins
whose committed duty `CYCLE` equals, 255 excepted, in slot order. -/
def Obligations.TickOffTheBoundaryLowersPins : Prop :=
  ∀ s : State, s.armed = true → s.run = true → s.cycle ≠ 0 →
    exec .tick s = .next { s with
      cycle := BitVec.ofNat 8 ((s.cycle.toNat + 1) % 256)
      trace := s.trace ++ (((s.slots.takeWhile Slot.valid).map Slot.pin).filter
        (fun q => decide (s.cycle = (dutyAt s q).c ∧ (dutyAt s q).c ≠ 255))).map
        (fun q => Event.setPinLevel q false) }

/-- R95: at most one event per live slot, in slot order (the events are those of some of the live slots, taken in order),
hence at most `LIVE` ≤ `MAX_CHANNELS` events per TICK. -/
def Obligations.TickEmitsAtMostOneEventPerSlot : Prop :=
  ∀ s : State, BlockInv s → ∃ t events, ∃ level : Pin → Bool, exec .tick s = .next t ∧ t.trace = s.trace ++ events ∧
    events.Sublist ((livePins s).map (fun q => Event.setPinLevel q (level q))) ∧
    events.length ≤ s.live.toNat ∧ s.live.toNat ≤ s.config.maxChannels

/-- R95: the set of events of a TICK, and what it commits, do not depend on the order of the live slots. -/
def Obligations.TickIgnoresSlotOrder : Prop :=
  ∀ (s : State) (slots' : List Slot), (slots'.takeWhile Slot.valid).Perm (s.slots.takeWhile Slot.valid) →
    ∃ t t' events events', exec .tick s = .next t ∧ exec .tick { s with slots := slots' } = .next t' ∧
      t.trace = s.trace ++ events ∧ t'.trace = s.trace ++ events' ∧ events'.Perm events ∧
      t'.duty = t.duty ∧ t'.cycle = t.cycle

/-! ### Whole-machine rules -/

/-- The reset state meets the invariant (R36). -/
def Obligations.InvariantHoldsAtReset : Prop := BlockInv State.reset

/-- Every step keeps the invariant (R18, R19, R28, R36, R85): from every state that meets it, not only from reset. -/
def Obligations.StepKeepsTheInvariant : Prop :=
  ∀ s t : State, BlockInv s → step s = .next t → BlockInv t

/-- R23: the shadow bits say what the block last told the tick source since the reset; so a TICK is serviced exactly when
the contract of R119 (a) lets one come. Every step keeps this, from every state that has it. That a source told nothing yet
counts as neither armed nor counting is the model's choice: log entry 23. -/
def Obligations.StepKeepsTheShadowBits : Prop :=
  ShadowAgrees State.reset ∧ ∀ s t : State, ShadowAgrees s → step s = .next t → ShadowAgrees t

/-- R139, R36 (f): after a teardown, over a run of any length without a reset, the tick source stays disarmed and halted,
`CYCLE` and `TCFG` stand still and no pin is driven. -/
def Obligations.TeardownIsPermanent : Prop :=
  ∀ (s : State) (k : Nat), TornDown s → (∀ i ∈ s.inputs, admissible i = true ∧ notReset i = true) →
    ∃ t events, runSteps k s = .next t ∧ TornDown t ∧ t.cycle = s.cycle ∧
      t.tcfgSel = s.tcfgSel ∧ t.tcfgReload = s.tcfgReload ∧
      t.trace = s.trace ++ events ∧ ∀ e ∈ events, drivesPin e = false

/-- The instance's parameters never change, so `PARAM` reads the same for ever (R7, R25, R29). -/
def Obligations.ParametersNeverChange : Prop :=
  ∀ s t : State, step s = .next t → t.config = s.config ∧ regRead 5 t = regRead 5 s

/-- R52, R60, R135: a step appends its events to the trace, and only a reset restarts it. -/
def Obligations.TraceOnlyGrows : Prop :=
  ∀ s t : State, step s = .next t →
    (∃ events, t.trace = s.trace ++ events) ∨ (∃ rest, s.inputs = .rst :: rest ∧ t.trace = [])

/-- R16: the writers of the duty pair. `P` is written by WRITE and, to 0, by REGISTER; `C` by the servicer at a cycle
boundary, from `P`, and, to 0, by REGISTER. -/
def Obligations.DutyPairHasItsWriters : Prop :=
  ∀ (s t : State) (i : Instr) (q : Pin), exec i s = .next t →
    ((dutyAt t q).p ≠ (dutyAt s q).p →
      i = .write q (dutyAt t q).p ∨ ((i = .enable q ∨ ∃ f, i = .init q f) ∧ (dutyAt t q).p = 0)) ∧
    ((dutyAt t q).c ≠ (dutyAt s q).c →
      (i = .tick ∧ s.cycle = 0 ∧ (dutyAt t q).c = (dutyAt s q).p) ∨
        ((i = .enable q ∨ ∃ f, i = .init q f) ∧ (dutyAt t q).c = 0))

/-- R21: the writers of `CYCLE`. -/
def Obligations.CycleHasItsWriters : Prop :=
  ∀ (s t : State) (i : Instr), exec i s = .next t → t.cycle ≠ s.cycle →
    (i = .tick ∧ s.armed = true ∧ s.run = true ∧ t.cycle = BitVec.ofNat 8 ((s.cycle.toNat + 1) % 256)) ∨
    (∃ p f, i = .init p f ∧ FrequencyInRange s.config f ∧ s.init = false ∧ t.cycle = 0)

/-- R111: a command never drives a pin; a TICK never writes what only commands write. -/
def Obligations.CommandsAndTicksStayApart : Prop :=
  ∀ (s t : State) (i : Instr), exec i s = .next t →
    (i ≠ .tick → ∃ events, t.trace = s.trace ++ events ∧ ∀ e ∈ events, drivesPin e = false) ∧
    (i = .tick →
      t.slots = s.slots ∧ t.live = s.live ∧ (∀ q, (dutyAt t q).p = (dutyAt s q).p) ∧ t.init = s.init ∧
      t.tcfgSel = s.tcfgSel ∧ t.tcfgReload = s.tcfgReload ∧ t.armed = s.armed ∧ t.run = s.run ∧
      t.result = s.result)

/-- R22, R69, R140: once `INIT` is 1 no instruction clears it, changes `TCFG`, or programs, restarts or arms the tick
source again. -/
def Obligations.TimerIsSetUpOnce : Prop :=
  ∀ (s t : State) (i : Instr), s.init = true → exec i s = .next t →
    t.init = true ∧ t.tcfgSel = s.tcfgSel ∧ t.tcfgReload = s.tcfgReload ∧
    ∃ events, t.trace = s.trace ++ events ∧
      ∀ e ∈ events, e ≠ .armInterrupt ∧ e ≠ .resetCounter ∧ ∀ sel reload, e ≠ .configureRate sel reload

/-- R24, R28, R32, R149: NOP and TICK leave `RESULT`; `EMPTY` is 1 only after a DISABLE or DESTROY, and then says that the
table is empty. -/
def Obligations.ResultReportsTheLastCommand : Prop :=
  ∀ (s t : State) (i : Instr), exec i s = .next t →
    ((i = .nop ∨ i = .tick) → t.result = s.result) ∧
    (i ≠ .nop → i ≠ .tick → t.result.empty = true → (∃ p, i = .disable p ∨ i = .destroy p) ∧ t.live = 0)

/-- R113, R122: the error causes and codes, complete, for every word written to `CMD`. -/
def Obligations.ErrorCodesAreComplete : Prop :=
  ∀ (s t : State) (w : Word), BlockInv s → decode (.cmdWord w) ≠ .ok .nop → regWrite 0 w s = .next t →
    (t.result.err = 3 ↔ ∃ e, decode (.cmdWord w) = .error e) ∧
    (t.result.err = 1 ↔ ∃ p f, decode (.cmdWord w) = .ok (.init p f) ∧ ¬FrequencyInRange s.config f) ∧
    (t.result.err = 2 ↔ s.live.toNat = s.config.maxChannels ∧
      ((∃ p, decode (.cmdWord w) = .ok (.enable p)) ∨
        ∃ p f, decode (.cmdWord w) = .ok (.init p f) ∧ FrequencyInRange s.config f)) ∧
    (t.result.err ≠ 0 → t.result.ok = false ∧ t.result.empty = false)

/-- R86: from an empty table, the first `MAX_CHANNELS` ENABLEs in sequence succeed, for any pins, and every further one
fails. -/
def Obligations.EnablesSucceedUpToCapacity : Prop :=
  ∀ (s : State) (pins : List Pin) (rest : List Input), BlockInv s → s.live = 0 →
    s.inputs = pins.map (fun p => Input.host (.write 0 (BitVec.ofNat 32 (0x20000000 + p.toNat * 65536)))) ++ rest →
    ∃ t, runSteps pins.length s = .next t ∧ livePins t = pins.take s.config.maxChannels ∧
      (pins ≠ [] → t.result.ok = decide (pins.length ≤ s.config.maxChannels) ∧
        t.result.err = if pins.length ≤ s.config.maxChannels then 0 else 2)

/-- R82 (e), R87: removing a live pin and enabling another keeps every other live pin, in order, none lost and none
duplicated; the new pin stands at the end. -/
def Obligations.CompactionLosesNothing : Prop :=
  ∀ (s : State) (p q : Pin) (i : Instr), BlockInv s → p ∈ livePins s → i = .disable p ∨ i = .destroy p →
    ∃ t u, exec i s = .next t ∧ exec (.enable q) t = .next u ∧
      livePins t = (livePins s).erase p ∧ livePins u = (livePins s).erase p ++ [q] ∧
      u.result.ok = true ∧ t.live.toNat + 1 = s.live.toNat

/-- R82 (f), R143: DISABLE and DESTROY leave every pin at its level. -/
def Obligations.RemovedPinsKeepTheirLevel : Prop :=
  ∀ (s t : State) (p q : Pin) (i : Instr), i = .disable p ∨ i = .destroy p → exec i s = .next t →
    pinLevel t.trace q = pinLevel s.trace q

/-! ### The waveform -/

/-- R96: a live pin whose pending duty at the boundary is d, 0 < d < 255, is high for ticks [0, d) and low for [d, 256) of
the cycle, with exactly two events for each slot that holds it (R95). After k ticks the cycle's tick k − 1 is the last
serviced. Here nothing but TICKs is presented; `Obligations.StepKeepsTheWaveform` is about any other step between them. -/
def Obligations.MiddleDutyWaveform : Prop :=
  ∀ (s : State) (p : Pin) (d : Duty) (k : Nat) (rest : List Input),
    BlockInv s → s.armed = true → s.cycle = 0 → p ∈ livePins s → (dutyAt s p).p = d →
    0 < d.toNat → d.toNat < 255 → s.inputs = List.replicate 256 (.tickIn 1) ++ rest → 1 ≤ k → k ≤ 256 →
    ∃ t, runSteps k s = .next t ∧ (dutyAt t p).c = d ∧ pinLevel t.trace p = some (decide (k - 1 < d.toNat)) ∧
      t.trace.countP (drives p) =
        s.trace.countP (drives p) + (livePins s).count p * (if k - 1 < d.toNat then 1 else 2)

/-- R97: at duty 0 the pin is low and at duty 255 it is high for the whole cycle, with exactly one event for each slot
that holds it (R95). Here nothing but TICKs is presented; `Obligations.StepKeepsTheWaveform` is about any other step
between them. -/
def Obligations.EndDutyWaveform : Prop :=
  ∀ (s : State) (p : Pin) (k : Nat) (rest : List Input),
    BlockInv s → s.armed = true → s.cycle = 0 → p ∈ livePins s →
    (dutyAt s p).p = 0 ∨ (dutyAt s p).p = 255 →
    s.inputs = List.replicate 256 (.tickIn 1) ++ rest → 1 ≤ k → k ≤ 256 →
    ∃ t, runSteps k s = .next t ∧ pinLevel t.trace p = some (decide ((dutyAt s p).p = 255)) ∧
      t.trace.countP (drives p) = s.trace.countP (drives p) + (livePins s).count p

/-- R98: a WRITE issued mid-cycle changes no event and no committed duty of the rest of the cycle, and its duty still
stands pending at the boundary; a WRITE issued before the boundary tick takes effect at that tick. -/
def Obligations.MidCycleWriteWaitsForTheBoundary : Prop :=
  ∀ (s w : State) (p : Pin) (d : Duty) (k : Nat) (rest : List Input), exec (.write p d) s = .next w →
    (s.cycle ≠ 0 → s.cycle.toNat + k ≤ 256 → s.inputs = List.replicate k (.tickIn 1) ++ rest →
      ∃ t t', runSteps k s = .next t ∧ runSteps k w = .next t' ∧ t'.trace = t.trace ∧ t'.cycle = t.cycle ∧
        (∀ q, (dutyAt t' q).c = (dutyAt t q).c) ∧ (dutyAt t' p).p = d) ∧
    (s.cycle = 0 → s.armed = true → s.run = true → p ∈ (s.slots.takeWhile Slot.valid).map Slot.pin →
      ∃ t, exec .tick w = .next t ∧ (dutyAt t p).c = d ∧ pinLevel t.trace p = some (decide (d ≠ 0)))

/-- R99: a pin registered while `CYCLE` is not 0, by ENABLE or by a later INIT, gets no event for the rest of that cycle,
whatever is written to it before the ticks. (The first in-range INIT sets `CYCLE` to 0, R73.) -/
def Obligations.NewPinWaitsForTheBoundary : Prop :=
  ∀ (s e w : State) (i : Instr) (p : Pin) (d : Duty) (k : Nat) (rest : List Input),
    i = .enable p ∨ (s.init = true ∧ ∃ f, i = .init p f) →
    exec i s = .next e → e.result.ok = true → exec (.write p d) e = .next w →
    s.cycle ≠ 0 → s.cycle.toNat + k ≤ 256 → s.inputs = List.replicate k (.tickIn 1) ++ rest →
    ∃ t, runSteps k w = .next t ∧ t.trace.countP (drives p) = s.trace.countP (drives p) ∧
      pinLevel t.trace p = pinLevel s.trace p

/-- R96, R97, R98, one step at a time: inside a cycle, every step keeps a live pin on its waveform, whatever it is (a
host read, a WRITE to this pin or another, an illegal word, a TICK, a command on another pin, one on this pin that finds
the table full), but for a reset, a REGISTER or UNREGISTER of the pin itself, and the serviced TICK that ends the cycle. -/
def Obligations.StepKeepsTheWaveform : Prop :=
  ∀ (s t : State) (p : Pin) (d : Duty) (base : Nat),
    BlockInv s → OnWaveform p d base s → step s = .next t →
    s.inputs.head? ≠ some .rst → (∀ i, nextInstr s = some i → ¬reslots p s i) →
    ¬(nextInstr s = some .tick ∧ s.armed = true ∧ s.cycle = 255) → OnWaveform p d base t

/-- R91, R96, R97: the serviced TICK at the boundary puts every live pin on the waveform of its pending duty, and the one at
`CYCLE` = 255 completes it: the pin low, or high at duty 255, with two events of each of its slots in the cycle, one at the
duties 0 and 255. -/
def Obligations.WaveformStartsAndEndsWithTheCycle : Prop :=
  ∀ (s : State) (p : Pin) (d : Duty), BlockInv s → s.armed = true → p ∈ livePins s →
    (s.cycle = 0 → (dutyAt s p).p = d →
      ∃ t, exec .tick s = .next t ∧ OnWaveform p d (s.trace.countP (drives p)) t) ∧
    (∀ base, s.cycle = 255 → OnWaveform p d base s →
      ∃ t, exec .tick s = .next t ∧ t.cycle = 0 ∧ pinLevel t.trace p = some (decide (d = 255)) ∧
        t.trace.countP (drives p) = base + (livePins s).count p * (if d = 0 ∨ d = 255 then 1 else 2))

/-! ### The assembler -/

/-- R64, R65: the word each line writes to `CMD`, what TICK, READ and RESET put on the ports, the pseudo-instruction, and the
operands the assembler refuses. -/
def Obligations.AssemblerFollowsTheSyntax : Prop :=
  ∀ (c : Config) (p f d n : Nat), c.Valid →
    assemble c .nop = some [.host (.write 0 0)] ∧
    (p ≤ 255 →
      (f ≤ 65535 → assemble c (.init p f) = some [.host (.write 0 (BitVec.ofNat 32 (0x10000000 + p * 65536 + f)))]) ∧
      assemble c (.initDefault p) = assemble c (.init p c.maxFrequency) ∧
      assemble c (.enable p) = some [.host (.write 0 (BitVec.ofNat 32 (0x20000000 + p * 65536)))] ∧
      assemble c (.disable p) = some [.host (.write 0 (BitVec.ofNat 32 (0x30000000 + p * 65536)))] ∧
      (d ≤ 255 → assemble c (.write p d) = some [.host (.write 0 (BitVec.ofNat 32 (0x40000000 + p * 65536 + d)))]) ∧
      assemble c (.destroy p) = some [.host (.write 0 (BitVec.ofNat 32 (0x50000000 + p * 65536)))]) ∧
    assemble c (.ticks n) = some (List.replicate n (.tickIn 1)) ∧
    assemble c .reset = some [.rst] ∧
    assemble c (.read .cmd) = some [.host (.read 0)] ∧ assemble c (.read .result) = some [.host (.read 1)] ∧
    assemble c (.read .status) = some [.host (.read 2)] ∧ assemble c (.read .cycle) = some [.host (.read 3)] ∧
    assemble c (.read .tcfg) = some [.host (.read 4)] ∧ assemble c (.read .param) = some [.host (.read 5)] ∧
    (n < c.maxChannels → assemble c (.read (.slot n)) = some [.host (.read (BitVec.ofNat 9 (16 + n)))]) ∧
    (p ≤ 255 → assemble c (.read (.duty p)) = some [.host (.read (BitVec.ofNat 9 (256 + p)))]) ∧
    (255 < p → assemble c (.init p f) = none ∧ assemble c (.initDefault p) = none ∧ assemble c (.enable p) = none ∧
      assemble c (.disable p) = none ∧ assemble c (.write p d) = none ∧ assemble c (.destroy p) = none) ∧
    (65535 < f → assemble c (.init p f) = none) ∧
    (255 < d → assemble c (.write p d) = none)
end

