-- ==== Sys2Proof/Laws/State.lean ====
section
/-! SUPPORT. One lemma per field per update of the state, each true by rfl: no later proof unfolds a record update. -/

namespace Sys2Proof.Machine

/-! ### setDuty -/

@[simp] theorem setDuty_config (p : Pin) (d : DutyPair) (s : State) : (setDuty p d s).config = s.config := rfl
@[simp] theorem setDuty_slots (p : Pin) (d : DutyPair) (s : State) : (setDuty p d s).slots = s.slots := rfl
@[simp] theorem setDuty_live (p : Pin) (d : DutyPair) (s : State) : (setDuty p d s).live = s.live := rfl
@[simp] theorem setDuty_duty (p : Pin) (d : DutyPair) (s : State) : (setDuty p d s).duty = s.duty.set p.toNat d (pin_lt p) := rfl
@[simp] theorem setDuty_cycle (p : Pin) (d : DutyPair) (s : State) : (setDuty p d s).cycle = s.cycle := rfl
@[simp] theorem setDuty_init (p : Pin) (d : DutyPair) (s : State) : (setDuty p d s).init = s.init := rfl
@[simp] theorem setDuty_tcfgSel (p : Pin) (d : DutyPair) (s : State) : (setDuty p d s).tcfgSel = s.tcfgSel := rfl
@[simp] theorem setDuty_tcfgReload (p : Pin) (d : DutyPair) (s : State) : (setDuty p d s).tcfgReload = s.tcfgReload := rfl
@[simp] theorem setDuty_armed (p : Pin) (d : DutyPair) (s : State) : (setDuty p d s).armed = s.armed := rfl
@[simp] theorem setDuty_run (p : Pin) (d : DutyPair) (s : State) : (setDuty p d s).run = s.run := rfl
@[simp] theorem setDuty_result (p : Pin) (d : DutyPair) (s : State) : (setDuty p d s).result = s.result := rfl
@[simp] theorem setDuty_trace (p : Pin) (d : DutyPair) (s : State) : (setDuty p d s).trace = s.trace := rfl
@[simp] theorem setDuty_replies (p : Pin) (d : DutyPair) (s : State) : (setDuty p d s).replies = s.replies := rfl
@[simp] theorem setDuty_inputs (p : Pin) (d : DutyPair) (s : State) : (setDuty p d s).inputs = s.inputs := rfl

/-! ### setPending -/

@[simp] theorem setPending_config (p : Pin) (d : Duty) (s : State) : (setPending p d s).config = s.config := rfl
@[simp] theorem setPending_slots (p : Pin) (d : Duty) (s : State) : (setPending p d s).slots = s.slots := rfl
@[simp] theorem setPending_live (p : Pin) (d : Duty) (s : State) : (setPending p d s).live = s.live := rfl
@[simp] theorem setPending_duty (p : Pin) (d : Duty) (s : State) : (setPending p d s).duty = s.duty.set p.toNat ⟨(dutyAt s p).c, d⟩ (pin_lt p) := rfl
@[simp] theorem setPending_cycle (p : Pin) (d : Duty) (s : State) : (setPending p d s).cycle = s.cycle := rfl
@[simp] theorem setPending_init (p : Pin) (d : Duty) (s : State) : (setPending p d s).init = s.init := rfl
@[simp] theorem setPending_tcfgSel (p : Pin) (d : Duty) (s : State) : (setPending p d s).tcfgSel = s.tcfgSel := rfl
@[simp] theorem setPending_tcfgReload (p : Pin) (d : Duty) (s : State) : (setPending p d s).tcfgReload = s.tcfgReload := rfl
@[simp] theorem setPending_armed (p : Pin) (d : Duty) (s : State) : (setPending p d s).armed = s.armed := rfl
@[simp] theorem setPending_run (p : Pin) (d : Duty) (s : State) : (setPending p d s).run = s.run := rfl
@[simp] theorem setPending_result (p : Pin) (d : Duty) (s : State) : (setPending p d s).result = s.result := rfl
@[simp] theorem setPending_trace (p : Pin) (d : Duty) (s : State) : (setPending p d s).trace = s.trace := rfl
@[simp] theorem setPending_replies (p : Pin) (d : Duty) (s : State) : (setPending p d s).replies = s.replies := rfl
@[simp] theorem setPending_inputs (p : Pin) (d : Duty) (s : State) : (setPending p d s).inputs = s.inputs := rfl

/-! ### commitDuty -/

@[simp] theorem commitDuty_config (p : Pin) (s : State) : (commitDuty p s).config = s.config := rfl
@[simp] theorem commitDuty_slots (p : Pin) (s : State) : (commitDuty p s).slots = s.slots := rfl
@[simp] theorem commitDuty_live (p : Pin) (s : State) : (commitDuty p s).live = s.live := rfl
@[simp] theorem commitDuty_duty (p : Pin) (s : State) : (commitDuty p s).duty = s.duty.set p.toNat ⟨(dutyAt s p).p, (dutyAt s p).p⟩ (pin_lt p) := rfl
@[simp] theorem commitDuty_cycle (p : Pin) (s : State) : (commitDuty p s).cycle = s.cycle := rfl
@[simp] theorem commitDuty_init (p : Pin) (s : State) : (commitDuty p s).init = s.init := rfl
@[simp] theorem commitDuty_tcfgSel (p : Pin) (s : State) : (commitDuty p s).tcfgSel = s.tcfgSel := rfl
@[simp] theorem commitDuty_tcfgReload (p : Pin) (s : State) : (commitDuty p s).tcfgReload = s.tcfgReload := rfl
@[simp] theorem commitDuty_armed (p : Pin) (s : State) : (commitDuty p s).armed = s.armed := rfl
@[simp] theorem commitDuty_run (p : Pin) (s : State) : (commitDuty p s).run = s.run := rfl
@[simp] theorem commitDuty_result (p : Pin) (s : State) : (commitDuty p s).result = s.result := rfl
@[simp] theorem commitDuty_trace (p : Pin) (s : State) : (commitDuty p s).trace = s.trace := rfl
@[simp] theorem commitDuty_replies (p : Pin) (s : State) : (commitDuty p s).replies = s.replies := rfl
@[simp] theorem commitDuty_inputs (p : Pin) (s : State) : (commitDuty p s).inputs = s.inputs := rfl

/-! ### setResult -/

@[simp] theorem setResult_config (ok empty : Bool) (err : BitVec 4) (s : State) : (setResult ok empty err s).config = s.config := rfl
@[simp] theorem setResult_slots (ok empty : Bool) (err : BitVec 4) (s : State) : (setResult ok empty err s).slots = s.slots := rfl
@[simp] theorem setResult_live (ok empty : Bool) (err : BitVec 4) (s : State) : (setResult ok empty err s).live = s.live := rfl
@[simp] theorem setResult_duty (ok empty : Bool) (err : BitVec 4) (s : State) : (setResult ok empty err s).duty = s.duty := rfl
@[simp] theorem setResult_cycle (ok empty : Bool) (err : BitVec 4) (s : State) : (setResult ok empty err s).cycle = s.cycle := rfl
@[simp] theorem setResult_init (ok empty : Bool) (err : BitVec 4) (s : State) : (setResult ok empty err s).init = s.init := rfl
@[simp] theorem setResult_tcfgSel (ok empty : Bool) (err : BitVec 4) (s : State) : (setResult ok empty err s).tcfgSel = s.tcfgSel := rfl
@[simp] theorem setResult_tcfgReload (ok empty : Bool) (err : BitVec 4) (s : State) : (setResult ok empty err s).tcfgReload = s.tcfgReload := rfl
@[simp] theorem setResult_armed (ok empty : Bool) (err : BitVec 4) (s : State) : (setResult ok empty err s).armed = s.armed := rfl
@[simp] theorem setResult_run (ok empty : Bool) (err : BitVec 4) (s : State) : (setResult ok empty err s).run = s.run := rfl
@[simp] theorem setResult_result (ok empty : Bool) (err : BitVec 4) (s : State) : (setResult ok empty err s).result = ⟨ok, empty, err⟩ := rfl
@[simp] theorem setResult_trace (ok empty : Bool) (err : BitVec 4) (s : State) : (setResult ok empty err s).trace = s.trace := rfl
@[simp] theorem setResult_replies (ok empty : Bool) (err : BitVec 4) (s : State) : (setResult ok empty err s).replies = s.replies := rfl
@[simp] theorem setResult_inputs (ok empty : Bool) (err : BitVec 4) (s : State) : (setResult ok empty err s).inputs = s.inputs := rfl

/-! ### raise -/

@[simp] theorem raise_config (e : Error) (s : State) : (raise e s).config = s.config := rfl
@[simp] theorem raise_slots (e : Error) (s : State) : (raise e s).slots = s.slots := rfl
@[simp] theorem raise_live (e : Error) (s : State) : (raise e s).live = s.live := rfl
@[simp] theorem raise_duty (e : Error) (s : State) : (raise e s).duty = s.duty := rfl
@[simp] theorem raise_cycle (e : Error) (s : State) : (raise e s).cycle = s.cycle := rfl
@[simp] theorem raise_init (e : Error) (s : State) : (raise e s).init = s.init := rfl
@[simp] theorem raise_tcfgSel (e : Error) (s : State) : (raise e s).tcfgSel = s.tcfgSel := rfl
@[simp] theorem raise_tcfgReload (e : Error) (s : State) : (raise e s).tcfgReload = s.tcfgReload := rfl
@[simp] theorem raise_armed (e : Error) (s : State) : (raise e s).armed = s.armed := rfl
@[simp] theorem raise_run (e : Error) (s : State) : (raise e s).run = s.run := rfl
@[simp] theorem raise_result (e : Error) (s : State) : (raise e s).result = ⟨false, false, errorCode e⟩ := rfl
@[simp] theorem raise_trace (e : Error) (s : State) : (raise e s).trace = s.trace := rfl
@[simp] theorem raise_replies (e : Error) (s : State) : (raise e s).replies = s.replies := rfl
@[simp] theorem raise_inputs (e : Error) (s : State) : (raise e s).inputs = s.inputs := rfl

/-! ### emit -/

@[simp] theorem emit_config (e : Event) (s : State) : (emit e s).config = s.config := rfl
@[simp] theorem emit_slots (e : Event) (s : State) : (emit e s).slots = s.slots := rfl
@[simp] theorem emit_live (e : Event) (s : State) : (emit e s).live = s.live := rfl
@[simp] theorem emit_duty (e : Event) (s : State) : (emit e s).duty = s.duty := rfl
@[simp] theorem emit_cycle (e : Event) (s : State) : (emit e s).cycle = s.cycle := rfl
@[simp] theorem emit_init (e : Event) (s : State) : (emit e s).init = s.init := rfl
@[simp] theorem emit_tcfgSel (e : Event) (s : State) : (emit e s).tcfgSel = s.tcfgSel := rfl
@[simp] theorem emit_tcfgReload (e : Event) (s : State) : (emit e s).tcfgReload = s.tcfgReload := rfl
@[simp] theorem emit_armed (e : Event) (s : State) : (emit e s).armed = s.armed := rfl
@[simp] theorem emit_run (e : Event) (s : State) : (emit e s).run = s.run := rfl
@[simp] theorem emit_result (e : Event) (s : State) : (emit e s).result = s.result := rfl
@[simp] theorem emit_trace (e : Event) (s : State) : (emit e s).trace = s.trace ++ [e] := rfl
@[simp] theorem emit_replies (e : Event) (s : State) : (emit e s).replies = s.replies := rfl
@[simp] theorem emit_inputs (e : Event) (s : State) : (emit e s).inputs = s.inputs := rfl

/-! ### programTimer -/

@[simp] theorem programTimer_config (sel : BitVec 8) (reload : BitVec 16) (s : State) : (programTimer sel reload s).config = s.config := rfl
@[simp] theorem programTimer_slots (sel : BitVec 8) (reload : BitVec 16) (s : State) : (programTimer sel reload s).slots = s.slots := rfl
@[simp] theorem programTimer_live (sel : BitVec 8) (reload : BitVec 16) (s : State) : (programTimer sel reload s).live = s.live := rfl
@[simp] theorem programTimer_duty (sel : BitVec 8) (reload : BitVec 16) (s : State) : (programTimer sel reload s).duty = s.duty := rfl
@[simp] theorem programTimer_cycle (sel : BitVec 8) (reload : BitVec 16) (s : State) : (programTimer sel reload s).cycle = 0 := rfl
@[simp] theorem programTimer_init (sel : BitVec 8) (reload : BitVec 16) (s : State) : (programTimer sel reload s).init = true := rfl
@[simp] theorem programTimer_tcfgSel (sel : BitVec 8) (reload : BitVec 16) (s : State) : (programTimer sel reload s).tcfgSel = sel := rfl
@[simp] theorem programTimer_tcfgReload (sel : BitVec 8) (reload : BitVec 16) (s : State) : (programTimer sel reload s).tcfgReload = reload := rfl
@[simp] theorem programTimer_armed (sel : BitVec 8) (reload : BitVec 16) (s : State) : (programTimer sel reload s).armed = s.armed := rfl
@[simp] theorem programTimer_run (sel : BitVec 8) (reload : BitVec 16) (s : State) : (programTimer sel reload s).run = true := rfl
@[simp] theorem programTimer_result (sel : BitVec 8) (reload : BitVec 16) (s : State) : (programTimer sel reload s).result = s.result := rfl
@[simp] theorem programTimer_trace (sel : BitVec 8) (reload : BitVec 16) (s : State) : (programTimer sel reload s).trace = s.trace ++ [.configureRate sel reload] ++ [.resetCounter] := rfl
@[simp] theorem programTimer_replies (sel : BitVec 8) (reload : BitVec 16) (s : State) : (programTimer sel reload s).replies = s.replies := rfl
@[simp] theorem programTimer_inputs (sel : BitVec 8) (reload : BitVec 16) (s : State) : (programTimer sel reload s).inputs = s.inputs := rfl

/-! ### armTick -/

@[simp] theorem armTick_config (s : State) : (armTick s).config = s.config := rfl
@[simp] theorem armTick_slots (s : State) : (armTick s).slots = s.slots := rfl
@[simp] theorem armTick_live (s : State) : (armTick s).live = s.live := rfl
@[simp] theorem armTick_duty (s : State) : (armTick s).duty = s.duty := rfl
@[simp] theorem armTick_cycle (s : State) : (armTick s).cycle = s.cycle := rfl
@[simp] theorem armTick_init (s : State) : (armTick s).init = s.init := rfl
@[simp] theorem armTick_tcfgSel (s : State) : (armTick s).tcfgSel = s.tcfgSel := rfl
@[simp] theorem armTick_tcfgReload (s : State) : (armTick s).tcfgReload = s.tcfgReload := rfl
@[simp] theorem armTick_armed (s : State) : (armTick s).armed = true := rfl
@[simp] theorem armTick_run (s : State) : (armTick s).run = s.run := rfl
@[simp] theorem armTick_result (s : State) : (armTick s).result = s.result := rfl
@[simp] theorem armTick_trace (s : State) : (armTick s).trace = s.trace ++ [.armInterrupt] := rfl
@[simp] theorem armTick_replies (s : State) : (armTick s).replies = s.replies := rfl
@[simp] theorem armTick_inputs (s : State) : (armTick s).inputs = s.inputs := rfl

/-! ### teardown -/

@[simp] theorem teardown_config (s : State) : (teardown s).config = s.config := rfl
@[simp] theorem teardown_slots (s : State) : (teardown s).slots = s.slots := rfl
@[simp] theorem teardown_live (s : State) : (teardown s).live = s.live := rfl
@[simp] theorem teardown_duty (s : State) : (teardown s).duty = s.duty := rfl
@[simp] theorem teardown_cycle (s : State) : (teardown s).cycle = s.cycle := rfl
@[simp] theorem teardown_init (s : State) : (teardown s).init = s.init := rfl
@[simp] theorem teardown_tcfgSel (s : State) : (teardown s).tcfgSel = s.tcfgSel := rfl
@[simp] theorem teardown_tcfgReload (s : State) : (teardown s).tcfgReload = s.tcfgReload := rfl
@[simp] theorem teardown_armed (s : State) : (teardown s).armed = false := rfl
@[simp] theorem teardown_run (s : State) : (teardown s).run = false := rfl
@[simp] theorem teardown_result (s : State) : (teardown s).result = s.result := rfl
@[simp] theorem teardown_trace (s : State) : (teardown s).trace = s.trace ++ [.disarmInterrupt] ++ [.haltCounting] := rfl
@[simp] theorem teardown_replies (s : State) : (teardown s).replies = s.replies := rfl
@[simp] theorem teardown_inputs (s : State) : (teardown s).inputs = s.inputs := rfl

/-! ### advanceCycle -/

@[simp] theorem advanceCycle_config (s : State) : (advanceCycle s).config = s.config := rfl
@[simp] theorem advanceCycle_slots (s : State) : (advanceCycle s).slots = s.slots := rfl
@[simp] theorem advanceCycle_live (s : State) : (advanceCycle s).live = s.live := rfl
@[simp] theorem advanceCycle_duty (s : State) : (advanceCycle s).duty = s.duty := rfl
@[simp] theorem advanceCycle_cycle (s : State) : (advanceCycle s).cycle = s.cycle + 1 := rfl
@[simp] theorem advanceCycle_init (s : State) : (advanceCycle s).init = s.init := rfl
@[simp] theorem advanceCycle_tcfgSel (s : State) : (advanceCycle s).tcfgSel = s.tcfgSel := rfl
@[simp] theorem advanceCycle_tcfgReload (s : State) : (advanceCycle s).tcfgReload = s.tcfgReload := rfl
@[simp] theorem advanceCycle_armed (s : State) : (advanceCycle s).armed = s.armed := rfl
@[simp] theorem advanceCycle_run (s : State) : (advanceCycle s).run = s.run := rfl
@[simp] theorem advanceCycle_result (s : State) : (advanceCycle s).result = s.result := rfl
@[simp] theorem advanceCycle_trace (s : State) : (advanceCycle s).trace = s.trace := rfl
@[simp] theorem advanceCycle_replies (s : State) : (advanceCycle s).replies = s.replies := rfl
@[simp] theorem advanceCycle_inputs (s : State) : (advanceCycle s).inputs = s.inputs := rfl

/-! ### holdInput -/

@[simp] theorem holdInput_config (i : Input) (s : State) : (holdInput i s).config = s.config := rfl
@[simp] theorem holdInput_slots (i : Input) (s : State) : (holdInput i s).slots = s.slots := rfl
@[simp] theorem holdInput_live (i : Input) (s : State) : (holdInput i s).live = s.live := rfl
@[simp] theorem holdInput_duty (i : Input) (s : State) : (holdInput i s).duty = s.duty := rfl
@[simp] theorem holdInput_cycle (i : Input) (s : State) : (holdInput i s).cycle = s.cycle := rfl
@[simp] theorem holdInput_init (i : Input) (s : State) : (holdInput i s).init = s.init := rfl
@[simp] theorem holdInput_tcfgSel (i : Input) (s : State) : (holdInput i s).tcfgSel = s.tcfgSel := rfl
@[simp] theorem holdInput_tcfgReload (i : Input) (s : State) : (holdInput i s).tcfgReload = s.tcfgReload := rfl
@[simp] theorem holdInput_armed (i : Input) (s : State) : (holdInput i s).armed = s.armed := rfl
@[simp] theorem holdInput_run (i : Input) (s : State) : (holdInput i s).run = s.run := rfl
@[simp] theorem holdInput_result (i : Input) (s : State) : (holdInput i s).result = s.result := rfl
@[simp] theorem holdInput_trace (i : Input) (s : State) : (holdInput i s).trace = s.trace := rfl
@[simp] theorem holdInput_replies (i : Input) (s : State) : (holdInput i s).replies = s.replies := rfl
@[simp] theorem holdInput_inputs (i : Input) (s : State) : (holdInput i s).inputs = i :: s.inputs := rfl

end Sys2Proof.Machine
end

