-- ==== Sys2Proof/Laws/Duty.lean ====
section
/-! SUPPORT. The Channel records: a read after a write to the same pin gives the value written, and a write leaves every
other pin's record alone (spec/10_state.md rule R14). -/

namespace Sys2Proof.Machine

theorem dutyAt_congr {s t : State} (h : t.duty = s.duty) (p : Pin) : dutyAt t p = dutyAt s p := by
  simp only [dutyAt, h]

@[simp] theorem dutyAt_setDuty_same (p : Pin) (d : DutyPair) (s : State) : dutyAt (setDuty p d s) p = d := by
  simp [dutyAt]

theorem dutyAt_setDuty_other {p q : Pin} (h : q ≠ p) (d : DutyPair) (s : State) :
    dutyAt (setDuty p d s) q = dutyAt s q := by
  have hne : p.toNat ≠ q.toNat := fun e => h (BitVec.eq_of_toNat_eq e.symm)
  simp [dutyAt, Vector.getElem_set_ne, hne]

theorem dutyAt_setDuty (p q : Pin) (d : DutyPair) (s : State) :
    dutyAt (setDuty p d s) q = if q = p then d else dutyAt s q := by
  split
  · next h => subst h; simp
  · next h => exact dutyAt_setDuty_other h d s

theorem dutyAt_commitDuty (p q : Pin) (s : State) :
    dutyAt (commitDuty p s) q = if q = p then ⟨(dutyAt s p).p, (dutyAt s p).p⟩ else dutyAt s q := by
  simp [commitDuty, dutyAt_setDuty]

theorem dutyAt_setPending (p q : Pin) (d : Duty) (s : State) :
    dutyAt (setPending p d s) q = if q = p then ⟨(dutyAt s p).c, d⟩ else dutyAt s q := by
  simp [setPending, dutyAt_setDuty]

@[simp] theorem dutyAt_emit (e : Event) (s : State) (q : Pin) : dutyAt (emit e s) q = dutyAt s q := rfl

@[simp] theorem dutyAt_setResult (ok empty : Bool) (err : BitVec 4) (s : State) (q : Pin) :
    dutyAt (setResult ok empty err s) q = dutyAt s q := rfl

@[simp] theorem dutyAt_advanceCycle (s : State) (q : Pin) : dutyAt (advanceCycle s) q = dutyAt s q := rfl

/-- Two records of Channels with equal pairs at every pin are one record. -/
theorem duty_ext {v w : Vector DutyPair 256} (h : ∀ p : Pin, v[p.toNat]'(pin_lt p) = w[p.toNat]'(pin_lt p)) : v = w := by
  ext i hi : 1
  have := h (BitVec.ofNat 8 i)
  simpa [Nat.mod_eq_of_lt hi] using this

end Sys2Proof.Machine
end

