-- ==== Sys2Proof/Laws/Encoding.lean ====
section
/-! SUPPORT. The fields of a packed word, as numbers (spec/30_encoding.md rules R53, R60). -/

namespace Sys2Proof

/-- A packed word as a number. -/
theorem packFields_toNat (hi : BitVec 4) (mid : BitVec 8) (lo : BitVec 16) :
    (packFields hi mid lo).toNat = hi.toNat * 268435456 + mid.toNat * 65536 + lo.toNat := by
  have h1 := hi.isLt
  have h2 := mid.isLt
  have h3 := lo.isLt
  show (hi ++ 0#4 ++ mid ++ lo).toNat = _
  rw [BitVec.toNat_append, BitVec.toNat_append, BitVec.toNat_append,
    ← Nat.shiftLeft_add_eq_or_of_lt h3, ← Nat.shiftLeft_add_eq_or_of_lt h2,
    ← Nat.shiftLeft_add_eq_or_of_lt (by decide : (0#4).toNat < 2 ^ 4)]
  simp only [Nat.shiftLeft_eq]
  simp
  omega

theorem opField_toNat (w : Word) : (opField w).toNat = w.toNat / 268435456 := by
  have := w.isLt
  simp [opField, BitVec.extractLsb'_toNat, Nat.shiftRight_eq_div_pow]
  omega

theorem rsvField_toNat (w : Word) : (rsvField w).toNat = w.toNat / 16777216 % 16 := by
  simp [rsvField, BitVec.extractLsb'_toNat, Nat.shiftRight_eq_div_pow]

theorem pinField_toNat (w : Word) : (pinField w).toNat = w.toNat / 65536 % 256 := by
  simp [pinField, BitVec.extractLsb'_toNat, Nat.shiftRight_eq_div_pow]

theorem argField_toNat (w : Word) : (argField w).toNat = w.toNat % 65536 := by
  simp [argField, BitVec.extractLsb'_toNat]

theorem argHighField_toNat (w : Word) : (argHighField w).toNat = w.toNat / 256 % 256 := by
  simp [argHighField, BitVec.extractLsb'_toNat, Nat.shiftRight_eq_div_pow]

theorem dutyField_toNat (w : Word) : (dutyField w).toNat = w.toNat % 256 := by
  simp [dutyField, BitVec.extractLsb'_toNat]

@[simp] theorem opField_packFields (hi : BitVec 4) (mid : BitVec 8) (lo : BitVec 16) :
    opField (packFields hi mid lo) = hi := by
  apply BitVec.eq_of_toNat_eq
  rw [opField_toNat, packFields_toNat]
  have := mid.isLt; have := lo.isLt
  omega

@[simp] theorem rsvField_packFields (hi : BitVec 4) (mid : BitVec 8) (lo : BitVec 16) :
    rsvField (packFields hi mid lo) = 0 := by
  apply BitVec.eq_of_toNat_eq
  rw [rsvField_toNat, packFields_toNat]
  have := mid.isLt; have := lo.isLt
  simp; omega

@[simp] theorem pinField_packFields (hi : BitVec 4) (mid : BitVec 8) (lo : BitVec 16) :
    pinField (packFields hi mid lo) = mid := by
  apply BitVec.eq_of_toNat_eq
  rw [pinField_toNat, packFields_toNat]
  have := mid.isLt; have := lo.isLt
  omega

@[simp] theorem argField_packFields (hi : BitVec 4) (mid : BitVec 8) (lo : BitVec 16) :
    argField (packFields hi mid lo) = lo := by
  apply BitVec.eq_of_toNat_eq
  rw [argField_toNat, packFields_toNat]
  have := lo.isLt
  omega

@[simp] theorem argHighField_packFields (hi : BitVec 4) (mid lo : BitVec 8) :
    argHighField (packFields hi mid (lo.setWidth 16)) = 0 := by
  apply BitVec.eq_of_toNat_eq
  rw [argHighField_toNat, packFields_toNat]
  have := lo.isLt
  simp; omega

@[simp] theorem dutyField_packFields (hi : BitVec 4) (mid lo : BitVec 8) :
    dutyField (packFields hi mid (lo.setWidth 16)) = lo := by
  apply BitVec.eq_of_toNat_eq
  rw [dutyField_toNat, packFields_toNat]
  have := lo.isLt
  simp; omega

/-- A word whose reserved bits are zero is packed from its fields. -/
theorem eq_packFields {w : Word} (h : rsvField w = 0) : w = packFields (opField w) (pinField w) (argField w) := by
  have h := congrArg BitVec.toNat h
  apply BitVec.eq_of_toNat_eq
  rw [packFields_toNat, opField_toNat, pinField_toNat, argField_toNat]
  rw [rsvField_toNat] at h
  simp at h
  omega

/-- A word is its four fields. -/
theorem word_eq_iff {v w : Word} :
    v = w ↔ opField v = opField w ∧ rsvField v = rsvField w ∧ pinField v = pinField w ∧ argField v = argField w := by
  refine ⟨fun h => by simp [h], fun ⟨h1, h2, h3, h4⟩ => BitVec.eq_of_toNat_eq ?_⟩
  have h1 := congrArg BitVec.toNat h1
  have h2 := congrArg BitVec.toNat h2
  have h3 := congrArg BitVec.toNat h3
  have h4 := congrArg BitVec.toNat h4
  rw [opField_toNat, opField_toNat] at h1
  rw [rsvField_toNat, rsvField_toNat] at h2
  rw [pinField_toNat, pinField_toNat] at h3
  rw [argField_toNat, argField_toNat] at h4
  omega

/-- The low half of a command word is its two bytes. -/
theorem argField_eq_zero_iff {w : Word} : argField w = 0 ↔ argHighField w = 0 ∧ dutyField w = 0 := by
  rw [← BitVec.toNat_inj, ← BitVec.toNat_inj, ← BitVec.toNat_inj, argField_toNat, argHighField_toNat, dutyField_toNat]
  simp
  omega

@[simp] theorem opField_and (v w : Word) : opField (v &&& w) = opField v &&& opField w := by
  simp [opField, BitVec.extractLsb'_and]

@[simp] theorem rsvField_and (v w : Word) : rsvField (v &&& w) = rsvField v &&& rsvField w := by
  simp [rsvField, BitVec.extractLsb'_and]

@[simp] theorem pinField_and (v w : Word) : pinField (v &&& w) = pinField v &&& pinField w := by
  simp [pinField, BitVec.extractLsb'_and]

@[simp] theorem argField_and (v w : Word) : argField (v &&& w) = argField v &&& argField w := by
  simp [argField, BitVec.extractLsb'_and]

/-- The mask of WRITE looks at the high half of `ARG` (R55). -/
theorem argField_and_high (w : Word) : argField w &&& 0xFF00#16 = 0#16 ↔ argHighField w = 0#8 := by
  have h : argHighField w = (argField w &&& 0xFF00#16).extractLsb' 8 8 := by
    rw [BitVec.extractLsb'_and, show (0xFF00#16).extractLsb' 8 8 = BitVec.allOnes 8 by decide, BitVec.and_allOnes]
    apply BitVec.eq_of_toNat_eq
    rw [argHighField_toNat, BitVec.extractLsb'_toNat, argField_toNat, Nat.shiftRight_eq_div_pow]
    omega
  refine ⟨fun h0 => by rw [h, h0]; decide, fun h0 => ?_⟩
  rw [h0] at h
  ext i hi
  by_cases h8 : i < 8
  · have low : ∀ j : Fin 8, (0xFF00#16).getLsbD j.val = false := by decide
    have hi0 := low ⟨i, h8⟩
    rw [BitVec.getLsbD_eq_getElem hi] at hi0
    simp [hi0]
  · have := congrArg (fun v : BitVec 8 => v.getLsbD (i - 8)) h
    have hi8 : i - 8 < 8 := by omega
    have e8 : 8 + (i - 8) = i := by omega
    simp [hi8, e8] at this
    simpa [BitVec.getLsbD_eq_getElem hi] using this

/-! ### Byte lanes (R44) -/

theorem wordOfLanes_toNat (b0 b1 b2 b3 : Byte) :
    (wordOfLanes b0 b1 b2 b3).toNat = b0.toNat + b1.toNat * 256 + b2.toNat * 65536 + b3.toNat * 16777216 := by
  have h0 := b0.isLt
  have h1 := b1.isLt
  have h2 := b2.isLt
  show (b3 ++ b2 ++ b1 ++ b0).toNat = _
  rw [BitVec.toNat_append, BitVec.toNat_append, BitVec.toNat_append,
    ← Nat.shiftLeft_add_eq_or_of_lt h0, ← Nat.shiftLeft_add_eq_or_of_lt h1,
    ← Nat.shiftLeft_add_eq_or_of_lt h2]
  simp only [Nat.shiftLeft_eq]
  omega

theorem lane_toNat (w : Word) :
    (w.extractLsb' 0 8).toNat = w.toNat % 256 ∧ (w.extractLsb' 8 8).toNat = w.toNat / 256 % 256 ∧
      (w.extractLsb' 16 8).toNat = w.toNat / 65536 % 256 ∧ (w.extractLsb' 24 8).toNat = w.toNat / 16777216 % 256 := by
  simp [BitVec.extractLsb'_toNat, Nat.shiftRight_eq_div_pow]

theorem lanesOfWord_wordOfLanes (b0 b1 b2 b3 : Byte) : lanesOfWord (wordOfLanes b0 b1 b2 b3) = [b0, b1, b2, b3] := by
  obtain ⟨h0, h1, h2, h3⟩ := lane_toNat (wordOfLanes b0 b1 b2 b3)
  rw [wordOfLanes_toNat] at h0 h1 h2 h3
  have := b0.isLt
  have := b1.isLt
  have := b2.isLt
  have := b3.isLt
  simp only [lanesOfWord, List.cons.injEq, and_true, ← BitVec.toNat_inj, h0, h1, h2, h3]
  omega

end Sys2Proof
end

