-- ==== Sys2Proof/Laws/Registry.lean ====
section
/-! SUPPORT. What REGISTER and UNREGISTER can do, said once (spec/41_channel_registry.md rules R77 to R87). -/

namespace Sys2Proof.Machine

/-! ### The scans over the table -/

theorem claimSlot_of_firstEmpty {p : Pin} {slots before after : List Slot} {x : Slot}
    (h : FirstEmpty slots before x after) : claimSlot p slots = some (before ++ ⟨true, p⟩ :: after) := by
  obtain ⟨rfl, hb, hx⟩ := h
  induction before with
  | nil => simp [claimSlot, hx]
  | cons y ys ih => simp [claimSlot, hb y (by simp), ih fun z hz => hb z (by simp [hz])]

theorem claimSlot_eq_none {p : Pin} {slots : List Slot} :
    claimSlot p slots = none ↔ ∀ x ∈ slots, x.valid = true := by
  induction slots with
  | nil => simp [claimSlot]
  | cons x xs ih => cases hx : x.valid <;> simp [claimSlot, hx, ih]

theorem firstEmpty_of_claimSlot {p : Pin} {slots slots' : List Slot} (h : claimSlot p slots = some slots') :
    ∃ before x after, FirstEmpty slots before x after ∧ slots' = before ++ ⟨true, p⟩ :: after := by
  induction slots generalizing slots' with
  | nil => simp [claimSlot] at h
  | cons y ys ih =>
    cases hy : y.valid with
    | false => exact ⟨[], y, ys, ⟨rfl, by simp, hy⟩, by simpa [claimSlot, hy] using h.symm⟩
    | true =>
      obtain ⟨zs, hz, rfl⟩ : ∃ zs, claimSlot p ys = some zs ∧ y :: zs = slots' := by
        simpa [claimSlot, hy] using h
      obtain ⟨before, x, after, ⟨he, hb, hx⟩, rfl⟩ := ih hz
      exact ⟨y :: before, x, after, ⟨by simp [he], by simpa [hy] using hb, hx⟩, rfl⟩

theorem releaseSlot_of_firstHolding {p : Pin} {slots before after : List Slot} {x : Slot}
    (h : FirstHolding p slots before x after) : releaseSlot p slots = some (before ++ after ++ [Slot.empty]) := by
  obtain ⟨rfl, hb, hv, hp⟩ := h
  induction before with
  | nil => simp [releaseSlot, hv, hp]
  | cons y ys ih =>
    have hy : (y.valid && decide (y.pin = p)) = false := by
      have := hb y (by simp)
      simpa using this
    rw [List.cons_append, releaseSlot, hy, ih fun z hz => hb z (by simp [hz])]
    simp

theorem releaseSlot_eq_none {p : Pin} {slots : List Slot} :
    releaseSlot p slots = none ↔ ∀ x ∈ slots, ¬(x.valid = true ∧ x.pin = p) := by
  induction slots with
  | nil => simp [releaseSlot]
  | cons x xs ih =>
    by_cases hx : x.valid = true ∧ x.pin = p
    · simp [releaseSlot, hx]
    · have : (x.valid && decide (x.pin = p)) = false := by simpa using hx
      rw [releaseSlot, this]
      simp only [Bool.false_eq_true, if_false, Option.map_eq_none_iff, ih, List.mem_cons, forall_eq_or_imp]
      exact ⟨fun h => ⟨hx, h⟩, And.right⟩

theorem firstHolding_of_releaseSlot {p : Pin} {slots slots' : List Slot} (h : releaseSlot p slots = some slots') :
    ∃ before x after, FirstHolding p slots before x after ∧ slots' = before ++ after ++ [Slot.empty] := by
  induction slots generalizing slots' with
  | nil => simp [releaseSlot] at h
  | cons y ys ih =>
    by_cases hy : y.valid = true ∧ y.pin = p
    · exact ⟨[], y, ys, ⟨rfl, by simp, hy.1, hy.2⟩, by simpa [releaseSlot, hy] using h.symm⟩
    · have hf : (y.valid && decide (y.pin = p)) = false := by simpa using hy
      obtain ⟨zs, hz, rfl⟩ : ∃ zs, releaseSlot p ys = some zs ∧ y :: zs = slots' := by
        simpa [releaseSlot, hf] using h
      obtain ⟨before, x, after, ⟨he, hb, hx⟩, rfl⟩ := ih hz
      refine ⟨y :: before, x, after, ⟨by simp [he], fun z hz => ?_, hx⟩, rfl⟩
      rcases List.mem_cons.1 hz with rfl | hz
      · exact hy
      · exact hb z hz

/-- The dispatch iteration visits the pins of the longest prefix of live slots (R84). -/
theorem dispatchPins_eq (slots : List Slot) : dispatchPins slots = (slots.takeWhile Slot.valid).map Slot.pin := by
  induction slots with
  | nil => rfl
  | cons x xs ih => cases hx : x.valid <;> simp [dispatchPins, hx, ih]

/-! ### The micro-operations -/

/-- REGISTER on a table with an empty slot (R78). -/
theorem register_of_firstEmpty {p : Pin} {s : State} {before after : List Slot} {x : Slot}
    (h : FirstEmpty s.slots before x after) :
    register p s = some (setDuty p ⟨0, 0⟩ { s with slots := before ++ ⟨true, p⟩ :: after, live := s.live + 1 }) := by
  simp [register, claimSlot_of_firstEmpty h]

/-- REGISTER on a full table (R79 (a)). -/
theorem register_eq_none {p : Pin} {s : State} : register p s = none ↔ ∀ x ∈ s.slots, x.valid = true := by
  simp [register, claimSlot_eq_none]

/-- Everything REGISTER can do. -/
theorem register_cases (p : Pin) (s : State) :
    (register p s = none ∧ ∀ x ∈ s.slots, x.valid = true) ∨
    ∃ before x after, FirstEmpty s.slots before x after ∧
      register p s = some (setDuty p ⟨0, 0⟩ { s with slots := before ++ ⟨true, p⟩ :: after, live := s.live + 1 }) := by
  cases h : claimSlot p s.slots with
  | none => exact .inl ⟨by simp [register, h], claimSlot_eq_none.1 h⟩
  | some slots =>
    obtain ⟨before, x, after, he, -⟩ := firstEmpty_of_claimSlot h
    exact .inr ⟨before, x, after, he, register_of_firstEmpty he⟩

/-- UNREGISTER of a live pin (R81). -/
theorem unregister_of_firstHolding {p : Pin} {s : State} {before after : List Slot} {x : Slot}
    (h : FirstHolding p s.slots before x after) :
    unregister p s = ⟨{ s with slots := before ++ after ++ [Slot.empty], live := s.live - 1 }, true,
      decide (s.live - 1 = 0)⟩ := by
  simp only [unregister, releaseSlot_of_firstHolding h]

/-- UNREGISTER of a pin that is not live (R82 (a)). -/
theorem unregister_of_absent {p : Pin} {s : State} (h : ∀ x ∈ s.slots, ¬(x.valid = true ∧ x.pin = p)) :
    unregister p s = ⟨s, false, decide (s.live = 0)⟩ := by
  simp only [unregister, releaseSlot_eq_none.2 h]

/-- Everything UNREGISTER can do. -/
theorem unregister_cases (p : Pin) (s : State) :
    ((∀ x ∈ s.slots, ¬(x.valid = true ∧ x.pin = p)) ∧ unregister p s = ⟨s, false, decide (s.live = 0)⟩) ∨
    ∃ before x after, FirstHolding p s.slots before x after ∧
      unregister p s = ⟨{ s with slots := before ++ after ++ [Slot.empty], live := s.live - 1 }, true,
        decide (s.live - 1 = 0)⟩ := by
  cases h : releaseSlot p s.slots with
  | none => exact .inl ⟨releaseSlot_eq_none.1 h, unregister_of_absent (releaseSlot_eq_none.1 h)⟩
  | some slots =>
    obtain ⟨before, x, after, he, -⟩ := firstHolding_of_releaseSlot h
    exact .inr ⟨before, x, after, he, unregister_of_firstHolding he⟩

/-! ### The table as the list of its live pins -/

/-- The table that holds the given live pins in order, followed by n empty slots. -/
def tableOf (pins : List Pin) (n : Nat) : List Slot := pins.map (⟨true, ·⟩) ++ List.replicate n Slot.empty

@[simp] theorem tableOf_length (pins : List Pin) (n : Nat) : (tableOf pins n).length = pins.length + n := by
  simp [tableOf]

theorem tableOf_livePins (pins : List Pin) (n : Nat) :
    ((tableOf pins n).filter Slot.valid).map Slot.pin = pins := by
  have h1 : (pins.map (⟨true, ·⟩ : Pin → Slot)).filter Slot.valid = pins.map (⟨true, ·⟩) := by
    rw [List.filter_eq_self]; simp
  have h2 : (List.replicate n Slot.empty).filter Slot.valid = [] := by
    rw [List.filter_eq_nil_iff]; simp [Slot.empty]
  simp [tableOf, h1, h2, Function.comp_def]

theorem tableOf_dispatchPins (pins : List Pin) (n : Nat) : dispatchPins (tableOf pins n) = pins := by
  induction pins with
  | nil => cases n <;> simp [tableOf, List.replicate_succ, dispatchPins, Slot.empty]
  | cons p ps ih => simpa [tableOf, dispatchPins] using ih

theorem tableOf_countP (pins : List Pin) (n : Nat) : (tableOf pins n).countP Slot.valid = pins.length := by
  have := congrArg List.length (tableOf_livePins pins n)
  simpa [List.countP_eq_length_filter] using this

theorem tableOf_claim (p : Pin) (pins : List Pin) (n : Nat) :
    claimSlot p (tableOf pins (n + 1)) = some (tableOf (pins ++ [p]) n) := by
  have h : FirstEmpty (tableOf pins (n + 1)) (pins.map (⟨true, ·⟩)) Slot.empty (List.replicate n Slot.empty) :=
    ⟨by simp [tableOf, List.replicate_succ], by simp, rfl⟩
  rw [claimSlot_of_firstEmpty h]
  simp [tableOf]

theorem tableOf_claim_full (p : Pin) (pins : List Pin) : claimSlot p (tableOf pins 0) = none := by
  rw [claimSlot_eq_none]; simp [tableOf]

theorem tableOf_release {p : Pin} {pins : List Pin} (h : p ∈ pins) (n : Nat) :
    releaseSlot p (tableOf pins n) = some (tableOf (pins.erase p) (n + 1)) := by
  induction pins with
  | nil => simp at h
  | cons q qs ih =>
    by_cases hq : q = p
    · subst hq
      simp [tableOf, releaseSlot, List.replicate_succ']
    · have hp : p ∈ qs := by simpa [Ne.symm hq] using h
      have := ih hp
      rw [List.erase_cons_tail (by simpa using hq)]
      simp only [tableOf, List.map_cons, List.cons_append] at this ⊢
      simp [releaseSlot, hq, this]

theorem tableOf_release_absent {p : Pin} {pins : List Pin} (h : p ∉ pins) (n : Nat) :
    releaseSlot p (tableOf pins n) = none := by
  rw [releaseSlot_eq_none]
  intro x hx
  rcases List.mem_append.1 hx with hx | hx
  · obtain ⟨q, hq, rfl⟩ := List.mem_map.1 hx
    rintro ⟨-, rfl⟩
    exact h hq
  · obtain ⟨-, rfl⟩ := List.mem_replicate.1 hx
    simp [Slot.empty]

/-! ### Tables that are a prefix -/

/-- In a table whose live slots are those below `LIVE`, the live slots come first and the empty ones follow (R18). -/
theorem slots_split {s : State} (h : PrefixLive s) :
    s.slots = s.slots.take s.live.toNat ++ s.slots.drop s.live.toNat ∧
      (∀ x ∈ s.slots.take s.live.toNat, x.valid = true) ∧ (∀ x ∈ s.slots.drop s.live.toNat, x.valid = false) := by
  refine ⟨(List.take_append_drop _ _).symm, fun x hx => ?_, fun x hx => ?_⟩
  · obtain ⟨i, hi, rfl⟩ := List.mem_iff_getElem.1 hx
    have hlen : i < s.slots.length := by have := List.length_take_le s.live.toNat s.slots; simp at hi; omega
    have hl : i < s.live.toNat := by simp at hi; omega
    simpa using (h i hlen).2 hl
  · obtain ⟨i, hi, rfl⟩ := List.mem_iff_getElem.1 hx
    have hi' : s.live.toNat + i < s.slots.length := by simp at hi; omega
    have := mt (h _ hi').1 (by omega)
    simpa using this

/-- The invariant's clauses about the registry, as one equation: the table is its live pins in order and then empty
slots (R17, R18, R19, R36). -/
theorem BlockInv.table {s : State} (h : BlockInv s) :
    s.slots = tableOf (livePins s) (s.config.maxChannels - s.live.toNat) ∧ (livePins s).length = s.live.toNat := by
  have hlen : (livePins s).length = s.live.toNat := by
    simp [livePins, h.live_count.1, List.countP_eq_length_filter]
  obtain ⟨hs, hv, he⟩ := slots_split h.prefix_live
  have h1 : s.slots.take s.live.toNat = (livePins s).map (⟨true, ·⟩) := by
    have hf : s.slots.filter Slot.valid = s.slots.take s.live.toNat := by
      conv_lhs => rw [hs]
      rw [List.filter_append, List.filter_eq_self.2 hv, List.filter_eq_nil_iff.2 (by simpa using he)]
      simp
    rw [livePins, hf, List.map_map]
    conv_lhs => rw [← List.map_id (s.slots.take s.live.toNat)]
    refine List.map_congr_left fun x hx => ?_
    have := hv x hx
    cases x
    exact congrArg₂ Slot.mk this rfl
  have h2 : s.slots.drop s.live.toNat = List.replicate (s.config.maxChannels - s.live.toNat) Slot.empty := by
    rw [List.eq_replicate_iff]
    refine ⟨by rw [List.length_drop, h.slots_sized], fun x hx => ?_⟩
    have hx' := he x hx
    have := h.empty_pin x (List.mem_of_mem_drop hx) hx'
    cases x
    exact congrArg₂ Slot.mk hx' this
  exact ⟨hs.trans (congrArg₂ (· ++ ·) h1 h2), hlen⟩

end Sys2Proof.Machine
end

