-- ==== Sys2Proof/Laws/Servicer.lean ====
section
/-! SUPPORT. What one visit of SERVICE's loop and a whole loop can do, said once (spec/42_cycle_servicer.md rules R90 to
R95). -/

namespace Sys2Proof.Machine

/-- The commit branch (R91). -/
theorem servicePin_at_boundary {s : State} (h : s.cycle = 0) (p : Pin) :
    servicePin p s = emit (.setPinLevel p (decide ((dutyAt s p).p ≠ 0))) (commitDuty p s) := by
  rw [servicePin, if_pos h]
  simp only [dutyAt_commitDuty, if_true]

/-- The other two branches (R92, R93). -/
theorem servicePin_off_boundary {s : State} (h : s.cycle ≠ 0) (p : Pin) :
    servicePin p s = if s.cycle = (dutyAt s p).c ∧ (dutyAt s p).c ≠ 255 then emit (.setPinLevel p false) s else s := by
  rw [servicePin, if_neg h]

/-- The loop at the boundary: what it leaves of every field. -/
theorem servicePins_at_boundary (pins : List Pin) {s : State} (h : s.cycle = 0) :
    servicePins pins s = { s with duty := (servicePins pins s).duty, trace := (servicePins pins s).trace } ∧
      (∀ q, dutyAt (servicePins pins s) q = if q ∈ pins then ⟨(dutyAt s q).p, (dutyAt s q).p⟩ else dutyAt s q) ∧
      (servicePins pins s).trace =
        s.trace ++ pins.map (fun q => Event.setPinLevel q (decide ((dutyAt s q).p ≠ 0))) := by
  induction pins generalizing s with
  | nil => simp [servicePins]
  | cons p ps ih =>
    have hp := servicePin_at_boundary h p
    have hc : (servicePin p s).cycle = 0 := by rw [hp]; simpa using h
    have hd : ∀ q, dutyAt (servicePin p s) q = if q = p then ⟨(dutyAt s q).p, (dutyAt s q).p⟩ else dutyAt s q := by
      intro q
      rw [hp, dutyAt_emit, dutyAt_commitDuty]
      split <;> simp_all
    have hP : ∀ q, (dutyAt (servicePin p s) q).p = (dutyAt s q).p := by
      intro q; rw [hd]; split <;> rfl
    obtain ⟨h1, h2, h3⟩ := ih hc
    refine ⟨?_, fun q => ?_, ?_⟩
    · rw [servicePins, h1, hp]; rfl
    · rw [servicePins, h2]
      by_cases hq : q ∈ ps
      · simp [hq, hP]
      · by_cases hqp : q = p
        · subst hqp; simp [hq, hd]
        · simp [hq, hqp, hd]
    · rw [servicePins, h3]
      simp only [hP]
      rw [hp]; simp

/-- The loop off the boundary: only the trace changes. -/
theorem servicePins_off_boundary (pins : List Pin) {s : State} (h : s.cycle ≠ 0) :
    servicePins pins s = { s with
      trace := s.trace ++ (pins.filter (fun q => decide (s.cycle = (dutyAt s q).c ∧ (dutyAt s q).c ≠ 255))).map
        (fun q => Event.setPinLevel q false) } := by
  induction pins generalizing s with
  | nil => simp [servicePins]
  | cons p ps ih =>
    rw [servicePins, servicePin_off_boundary h p]
    by_cases hp : s.cycle = (dutyAt s p).c ∧ (dutyAt s p).c ≠ 255
    · rw [if_pos hp, ih (by simpa using h)]
      simp only [emit_cycle, dutyAt_emit]
      rw [List.filter_cons_of_pos (by simpa using hp)]
      simp only [emit, List.map_cons, List.append_assoc, List.singleton_append]
      rfl
    · rw [if_neg hp, ih h, List.filter_cons_of_neg (by simpa using hp)]

/-- A visit, and so the loop, leaves everything but `DUTY[p].C` and the trace (R111). -/
theorem servicePins_frame (pins : List Pin) (s : State) :
    servicePins pins s = { s with duty := (servicePins pins s).duty, trace := (servicePins pins s).trace } ∧
      ∀ q, (dutyAt (servicePins pins s) q).p = (dutyAt s q).p := by
  by_cases h : s.cycle = 0
  · obtain ⟨h1, h2, -⟩ := servicePins_at_boundary pins h
    refine ⟨h1, fun q => ?_⟩
    rw [h2]; split <;> rfl
  · rw [servicePins_off_boundary pins h]
    exact ⟨rfl, fun q => rfl⟩

/-- Everything TICK can do (R89). -/
theorem execTick_cases (s : State) :
    ((s.armed = false ∨ s.run = false) ∧ execTick s = .next s) ∨
    (s.armed = true ∧ s.run = true ∧ execTick s = .next (service s)) := by
  cases ha : s.armed <;> cases hr : s.run <;> simp [execTick, ha, hr]

/-- SERVICE writes nothing but `CYCLE`, `DUTY[p].C` and the trace (R111). -/
theorem service_frame (s : State) :
    service s = { s with cycle := s.cycle + 1, duty := (service s).duty, trace := (service s).trace } ∧
      ∀ q, (dutyAt (service s) q).p = (dutyAt s q).p := by
  obtain ⟨h1, h2⟩ := servicePins_frame (dispatchPins s.slots) s
  refine ⟨?_, h2⟩
  rw [service, h1]
  rfl

end Sys2Proof.Machine
end

