-- ==== Sys2Proof/Laws/TickRate.lean ====
section
/-! SUPPORT. What CONFIGURE can do, said once (spec/40_tick_rate_programmer.md rules R68 to R75). -/

namespace Sys2Proof.Machine

theorem inRange_eq {c : Config} {f : Freq} : inRange c f = true ↔ FrequencyInRange c f := by
  simp [inRange, FrequencyInRange]; omega

theorem inRange_eq_false {c : Config} {f : Freq} :
    inRange c f = false ↔ f.toNat = 0 ∨ c.maxFrequency < f.toNat := by
  rw [← Bool.not_eq_true, inRange_eq]; omega

/-- The walk finds the first entry that fits (R71). -/
theorem prescaleWalk_of_fits {res cycles : Nat} {before after : List PrescaleEntry} {e : PrescaleEntry}
    (earlier : ∀ x ∈ before, res ≤ cycles / 2 ^ x.shift) (below : cycles / 2 ^ e.shift < res) :
    prescaleWalk res cycles (before ++ e :: after) = some (e.sel, cycles / 2 ^ e.shift) := by
  induction before with
  | nil => simp [prescaleWalk, Nat.shiftRight_eq_div_pow, below]
  | cons x xs ih =>
    have hx := earlier x (by simp)
    simp [prescaleWalk, Nat.shiftRight_eq_div_pow, Nat.not_lt.2 hx, ih fun y hy => earlier y (by simp [hy])]

/-- The walk fails exactly when no entry fits (R72). -/
theorem prescaleWalk_eq_none {res cycles : Nat} {table : List PrescaleEntry} :
    prescaleWalk res cycles table = none ↔ ∀ x ∈ table, res ≤ cycles / 2 ^ x.shift := by
  induction table with
  | nil => simp [prescaleWalk]
  | cons x xs ih =>
    by_cases hx : cycles / 2 ^ x.shift < res
    · simp [prescaleWalk, Nat.shiftRight_eq_div_pow, hx]
    · simp [prescaleWalk, Nat.shiftRight_eq_div_pow, hx, ih, Nat.not_lt.1 hx]

/-- What the walk answers is a first fitting entry (R71). -/
theorem fits_of_prescaleWalk {res cycles : Nat} {table : List PrescaleEntry} {r : BitVec 8 × Nat}
    (h : prescaleWalk res cycles table = some r) :
    ∃ before e after, table = before ++ e :: after ∧ (∀ x ∈ before, res ≤ cycles / 2 ^ x.shift) ∧
      cycles / 2 ^ e.shift < res ∧ r = (e.sel, cycles / 2 ^ e.shift) := by
  induction table with
  | nil => simp [prescaleWalk] at h
  | cons x xs ih =>
    rw [prescaleWalk, Nat.shiftRight_eq_div_pow] at h
    split at h
    · next hx => exact ⟨[], x, xs, rfl, by simp, hx, by simpa using h.symm⟩
    · next hx =>
      obtain ⟨before, e, after, rfl, hb, he, rfl⟩ := ih h
      exact ⟨x :: before, e, after, rfl, by simpa [Nat.not_lt.1 hx] using hb, he, rfl⟩

/-- The model's choice is the one the rules R71 and R72 describe. -/
theorem prescaleSelect_of_choice {c : Config} {cycles : Nat} {sel : BitVec 8} {reload : Nat}
    (h : PrescaleChoice c cycles sel reload) : prescaleSelect c cycles = (sel, reload) := by
  cases h with
  | fits before e after split earlier below =>
    simp [prescaleSelect, split, prescaleWalk_of_fits earlier below]
  | saturates before last split none_fits =>
    rw [prescaleSelect, prescaleWalk_eq_none.2 none_fits]
    simp [prescaleSaturated, split]

/-- A table with an entry always gives a choice. -/
theorem choice_of_prescaleSelect {c : Config} (h : c.PrescaleNonempty) (cycles : Nat) :
    PrescaleChoice c cycles (prescaleSelect c cycles).1 (prescaleSelect c cycles).2 := by
  cases hw : prescaleWalk c.res cycles c.prescale with
  | none =>
    obtain ⟨before, last, hs⟩ : ∃ before last, c.prescale = before ++ [last] :=
      ⟨_, _, (List.dropLast_append_getLast h).symm⟩
    have hc := PrescaleChoice.saturates (c := c) (cycles := cycles) before last hs (prescaleWalk_eq_none.1 hw)
    rw [prescaleSelect_of_choice hc]; exact hc
  | some r =>
    obtain ⟨before, e, after, hs, hb, he, rfl⟩ := fits_of_prescaleWalk hw
    have hc := PrescaleChoice.fits (c := c) (cycles := cycles) before e after hs hb he
    rw [prescaleSelect_of_choice hc]; exact hc

/-- The chosen reload value is below `RES` (R75). -/
theorem choice_reload_lt {c : Config} {cycles : Nat} {sel : BitVec 8} {reload : Nat} (hr : 0 < c.res)
    (h : PrescaleChoice c cycles sel reload) : reload < c.res := by
  cases h with
  | fits before e after split earlier below => exact below
  | saturates before last split none_fits => omega

/-- The chosen selection code is one of the table's (R28). -/
theorem choice_sel_mem {c : Config} {cycles : Nat} {sel : BitVec 8} {reload : Nat}
    (h : PrescaleChoice c cycles sel reload) : ∃ e ∈ c.prescale, e.sel = sel := by
  cases h with
  | fits before e after split earlier below => exact ⟨e, by simp [split], rfl⟩
  | saturates before last split none_fits => exact ⟨last, by simp [split], rfl⟩

/-- Everything CONFIGURE can do (R74). -/
theorem configure_cases (f : Freq) (s : State) :
    (¬FrequencyInRange s.config f ∧ configure f s = none) ∨
    (FrequencyInRange s.config f ∧ s.init = true ∧ configure f s = some s) ∨
    (FrequencyInRange s.config f ∧ s.init = false ∧
      configure f s = some (programTimer (prescaleSelect s.config (cycleCount s.config.fClk f.toNat)).1
        (BitVec.ofNat 16 (prescaleSelect s.config (cycleCount s.config.fClk f.toNat)).2) s)) := by
  by_cases hf : FrequencyInRange s.config f
  · have hr := inRange_eq.2 hf
    cases hi : s.init with
    | true => exact .inr (.inl ⟨hf, rfl, by simp [configure, hr, hi]⟩)
    | false => exact .inr (.inr ⟨hf, rfl, by simp [configure, hr, hi]⟩)
  · have hr : inRange s.config f = false := Bool.not_eq_true _ ▸ mt inRange_eq.1 hf
    exact .inl ⟨hf, by simp [configure, hr]⟩

end Sys2Proof.Machine
end

