-- ==== Sys2Proof/Laws/Lifecycle.lean ====
section
/-! SUPPORT. What the parts the commands share can do, said once (spec/43_channel_lifecycle.md). -/

namespace Sys2Proof.Machine

/-- REGISTER and its report with an empty slot (R103, R105). -/
theorem registerAndReport_of_firstEmpty {p : Pin} {s : State} {before after : List Slot} {x : Slot}
    (h : FirstEmpty s.slots before x after) :
    registerAndReport p s = { s with
      slots := before ++ ⟨true, p⟩ :: after, live := s.live + 1
      duty := s.duty.set p.toNat ⟨0, 0⟩ (pin_lt p), result := ⟨true, false, 0⟩ } := by
  simp only [registerAndReport, register_of_firstEmpty h]; rfl

/-- REGISTER and its report on a full table (R103, R105). -/
theorem registerAndReport_of_full {p : Pin} {s : State} (h : ∀ x ∈ s.slots, x.valid = true) :
    registerAndReport p s = { s with result := ⟨false, false, 2⟩ } := by
  simp only [registerAndReport, register_eq_none.2 h]; rfl

/-- Everything REGISTER and its report can do. -/
theorem registerAndReport_cases (p : Pin) (s : State) :
    ((∀ x ∈ s.slots, x.valid = true) ∧ registerAndReport p s = { s with result := ⟨false, false, 2⟩ }) ∨
    ∃ before x after, FirstEmpty s.slots before x after ∧ registerAndReport p s = { s with
      slots := before ++ ⟨true, p⟩ :: after, live := s.live + 1
      duty := s.duty.set p.toNat ⟨0, 0⟩ (pin_lt p), result := ⟨true, false, 0⟩ } := by
  rcases register_cases p s with ⟨-, h⟩ | ⟨before, x, after, h, -⟩
  · exact .inl ⟨h, registerAndReport_of_full h⟩
  · exact .inr ⟨before, x, after, h, registerAndReport_of_firstEmpty h⟩

/-- Everything UNREGISTER, TEARDOWN and the report can do (R106, R107, R112): the four rows of DISABLE and DESTROY. -/
theorem removeAndReport_cases (p : Pin) (s : State) :
    ((∀ x ∈ s.slots, ¬(x.valid = true ∧ x.pin = p)) ∧ s.live ≠ 0 ∧
      removeAndReport p s = { s with result := ⟨false, false, 0⟩ }) ∨
    ((∀ x ∈ s.slots, ¬(x.valid = true ∧ x.pin = p)) ∧ s.live = 0 ∧
      removeAndReport p s = { s with
        armed := false, run := false, result := ⟨false, true, 0⟩
        trace := s.trace ++ [.disarmInterrupt, .haltCounting] }) ∨
    (∃ before x after, FirstHolding p s.slots before x after ∧ s.live - 1 ≠ 0 ∧
      removeAndReport p s = { s with
        slots := before ++ after ++ [Slot.empty], live := s.live - 1, result := ⟨true, false, 0⟩ }) ∨
    (∃ before x after, FirstHolding p s.slots before x after ∧ s.live - 1 = 0 ∧
      removeAndReport p s = { s with
        slots := before ++ after ++ [Slot.empty], live := s.live - 1, armed := false, run := false
        result := ⟨true, true, 0⟩, trace := s.trace ++ [.disarmInterrupt, .haltCounting] }) := by
  rcases unregister_cases p s with ⟨ha, hu⟩ | ⟨before, x, after, hf, hu⟩
  · by_cases hl : s.live = 0
    · refine .inr (.inl ⟨ha, hl, ?_⟩)
      simp only [removeAndReport, hu, hl, decide_true, if_true, teardown, emit, List.append_assoc]
      rfl
    · refine .inl ⟨ha, hl, ?_⟩
      simp only [removeAndReport, hu, hl, decide_false, Bool.false_eq_true, if_false]
      rfl
  · by_cases hl : s.live - 1 = 0
    · refine .inr (.inr (.inr ⟨before, x, after, hf, hl, ?_⟩))
      simp only [removeAndReport, hu, hl, decide_true, if_true, teardown, emit, List.append_assoc]
      rfl
    · refine .inr (.inr (.inl ⟨before, x, after, hf, hl, ?_⟩))
      simp only [removeAndReport, hu, hl, decide_false, Bool.false_eq_true, if_false]
      rfl

/-- INIT before its REGISTER, once the engine is initialised (R69, R103). -/
theorem prepareChannel_of_init {p : Pin} {f : Freq} {s : State} (hi : s.init = true) (hf : FrequencyInRange s.config f) :
    prepareChannel p f s = emit (.setOutputMode p) s := by
  rcases configure_cases f s with ⟨h, -⟩ | ⟨-, -, h⟩ | ⟨-, h, -⟩
  · exact absurd hf h
  · simp [prepareChannel, h, hi]
  · simp [hi] at h

/-- INIT before its REGISTER, the first time in range (R73, R103). -/
theorem prepareChannel_of_first {p : Pin} {f : Freq} {s : State} {sel : BitVec 8} {reload : Nat} (hi : s.init = false)
    (hf : FrequencyInRange s.config f)
    (hc : PrescaleChoice s.config (s.config.fClk / (f.toNat * 256) / 2) sel reload) :
    prepareChannel p f s = { s with
      tcfgSel := sel, tcfgReload := BitVec.ofNat 16 reload, run := true, cycle := 0, init := true, armed := true
      trace := s.trace ++
        [.configureRate sel (BitVec.ofNat 16 reload), .resetCounter, .armInterrupt, .setOutputMode p] } := by
  rcases configure_cases f s with ⟨h, -⟩ | ⟨-, h, -⟩ | ⟨-, -, h⟩
  · exact absurd hf h
  · simp [hi] at h
  · rw [cycleCount, prescaleSelect_of_choice hc] at h
    simp [prepareChannel, h, hi, programTimer, armTick, emit]

/-- INIT is decided by the range check (R68, R103). -/
theorem execInit_of_inRange {p : Pin} {f : Freq} {s : State} (hf : FrequencyInRange s.config f) :
    execInit p f s = .next (registerAndReport p (prepareChannel p f s)) := by
  simp [execInit, inRange_eq.2 hf]

theorem execInit_of_outOfRange {p : Pin} {f : Freq} {s : State} (hf : ¬FrequencyInRange s.config f) :
    execInit p f s = .next { s with result := ⟨false, false, 1⟩ } := by
  have hr : inRange s.config f = false := Bool.not_eq_true _ ▸ mt inRange_eq.1 hf
  simp only [execInit, hr]; rfl

/-- What INIT's preparation leaves, whichever INIT it is: the registry, the duty records and `RESULT`. -/
theorem prepareChannel_frame (p : Pin) (f : Freq) (s : State) :
    (prepareChannel p f s).slots = s.slots ∧ (prepareChannel p f s).live = s.live ∧
      (prepareChannel p f s).duty = s.duty ∧ (prepareChannel p f s).result = s.result ∧
      (prepareChannel p f s).config = s.config ∧ (prepareChannel p f s).inputs = s.inputs ∧
      (prepareChannel p f s).replies = s.replies := by
  rcases configure_cases f s with ⟨-, h⟩ | ⟨-, hi, h⟩ | ⟨-, hi, h⟩
  · cases hi : s.init <;> simp [prepareChannel, h, hi]
  · simp [prepareChannel, h, hi]
  · simp [prepareChannel, h, hi]

/-- REGISTER and its report leave the timer state, `CYCLE` and the trace. -/
theorem registerAndReport_frame (p : Pin) (s : State) :
    (registerAndReport p s).trace = s.trace ∧ (registerAndReport p s).armed = s.armed ∧
      (registerAndReport p s).run = s.run ∧ (registerAndReport p s).init = s.init ∧
      (registerAndReport p s).tcfgSel = s.tcfgSel ∧ (registerAndReport p s).tcfgReload = s.tcfgReload ∧
      (registerAndReport p s).cycle = s.cycle := by
  rcases registerAndReport_cases p s with ⟨-, h⟩ | ⟨_, _, _, -, h⟩ <;> simp [h]

/-- REGISTER and its report leave every duty pair, or zero that of their pin (R78, R79). -/
theorem registerAndReport_duty (p : Pin) (s : State) (q : Pin) :
    dutyAt (registerAndReport p s) q = dutyAt s q ∨ (q = p ∧ dutyAt (registerAndReport p s) q = ⟨0, 0⟩) := by
  rcases registerAndReport_cases p s with ⟨-, h⟩ | ⟨_, _, _, -, h⟩ <;> rw [h]
  · exact .inl rfl
  · by_cases hq : q = p
    · subst hq; exact .inr ⟨rfl, dutyAt_setDuty_same q ⟨0, 0⟩ s⟩
    · exact .inl (dutyAt_setDuty_other hq ⟨0, 0⟩ s)

/-- UNREGISTER, TEARDOWN and the report leave the duty pairs, `CYCLE`, `INIT` and `TCFG` (R107). -/
theorem removeAndReport_frame (p : Pin) (s : State) :
    (removeAndReport p s).duty = s.duty ∧ (removeAndReport p s).cycle = s.cycle ∧ (removeAndReport p s).init = s.init ∧
      (removeAndReport p s).tcfgSel = s.tcfgSel ∧ (removeAndReport p s).tcfgReload = s.tcfgReload := by
  rcases removeAndReport_cases p s with ⟨-, -, h⟩ | ⟨-, -, h⟩ | ⟨_, _, _, -, -, h⟩ | ⟨_, _, _, -, -, h⟩ <;> simp [h]

/-- Everything INIT does before its REGISTER, once the frequency is in range. -/
theorem prepareChannel_cases (p : Pin) {f : Freq} {s : State} (hf : FrequencyInRange s.config f) :
    (s.init = true ∧ prepareChannel p f s = emit (.setOutputMode p) s) ∨
    (s.init = false ∧ ∃ sel reload, prepareChannel p f s = { s with
      tcfgSel := sel, tcfgReload := reload, run := true, cycle := 0, init := true, armed := true
      trace := s.trace ++ [.configureRate sel reload, .resetCounter, .armInterrupt, .setOutputMode p] }) := by
  rcases configure_cases f s with ⟨h, -⟩ | ⟨-, hi, h⟩ | ⟨-, hi, h⟩
  · exact absurd hf h
  · exact .inl ⟨hi, by simp [prepareChannel, h, hi]⟩
  · refine .inr ⟨hi, (prescaleSelect s.config (cycleCount s.config.fClk f.toNat)).1,
      BitVec.ofNat 16 (prescaleSelect s.config (cycleCount s.config.fClk f.toNat)).2, ?_⟩
    simp [prepareChannel, h, hi, programTimer, armTick, emit]

end Sys2Proof.Machine
end

