-- ==== Sys2Proof/Laws/Step.lean ====
section
/-! SUPPORT. What `exec` and `step` can do, said once, so that no invariant unfolds them again. -/

namespace Sys2Proof.Machine

/-- Every instruction completes: none stops on any path (R118). -/
theorem exec_next (i : Instr) (s : State) : ∃ t, exec i s = .next t := by
  cases i with
  | nop => exact ⟨_, rfl⟩
  | init p f => by_cases hf : inRange s.config f = true <;> simp [exec, execInit, hf]
  | enable p => exact ⟨_, rfl⟩
  | disable p => exact ⟨_, rfl⟩
  | write p d => exact ⟨_, rfl⟩
  | destroy p => exact ⟨_, rfl⟩
  | tick => rcases execTick_cases s with ⟨-, h⟩ | ⟨-, -, h⟩ <;> exact ⟨_, h⟩

theorem registerAndReport_ports (p : Pin) (s : State) :
    (registerAndReport p s).config = s.config ∧ (registerAndReport p s).inputs = s.inputs ∧
      (registerAndReport p s).replies = s.replies := by
  rcases registerAndReport_cases p s with ⟨-, h⟩ | ⟨_, _, _, -, h⟩ <;> simp [h]

theorem removeAndReport_ports (p : Pin) (s : State) :
    (removeAndReport p s).config = s.config ∧ (removeAndReport p s).inputs = s.inputs ∧
      (removeAndReport p s).replies = s.replies := by
  rcases removeAndReport_cases p s with ⟨-, -, h⟩ | ⟨-, -, h⟩ | ⟨_, _, _, -, -, h⟩ | ⟨_, _, _, -, -, h⟩ <;> simp [h]

/-- No instruction touches the parameters, the pending inputs or the answers of the read port. -/
theorem exec_ports {i : Instr} {s t : State} (h : exec i s = .next t) :
    t.config = s.config ∧ t.inputs = s.inputs ∧ t.replies = s.replies := by
  cases i with
  | nop => cases h; exact ⟨rfl, rfl, rfl⟩
  | init p f =>
    have h : execInit p f s = .next t := h
    by_cases hf : FrequencyInRange s.config f
    · rw [execInit_of_inRange hf] at h
      cases h
      obtain ⟨h1, h2, h3⟩ := registerAndReport_ports p (prepareChannel p f s)
      obtain ⟨-, -, -, -, g1, g2, g3⟩ := prepareChannel_frame p f s
      exact ⟨h1.trans g1, h2.trans g2, h3.trans g3⟩
    · rw [execInit_of_outOfRange hf] at h
      cases h; exact ⟨rfl, rfl, rfl⟩
  | enable p => cases h; exact registerAndReport_ports p s
  | disable p => cases h; exact removeAndReport_ports p s
  | write p d => cases h; exact ⟨rfl, rfl, rfl⟩
  | destroy p => cases h; exact removeAndReport_ports p s
  | tick =>
    have h : execTick s = .next t := h
    rcases execTick_cases s with ⟨-, g⟩ | ⟨-, -, g⟩ <;> rw [g] at h <;> cases h
    · exact ⟨rfl, rfl, rfl⟩
    · rw [(service_frame s).1]; exact ⟨rfl, rfl, rfl⟩

/-- What a signal can do: its instruction runs, or it is an illegal word, or no event. -/
theorem runSignal_cases (x : Signal) (s : State) :
    (∃ i, decode x = .ok i ∧ runSignal x s = exec i s) ∨
    (∃ e, decode x = .error e ∧ e ≠ .noTick ∧ runSignal x s = .next { s with result := ⟨false, false, 3⟩ }) ∨
    (decode x = .error .noTick ∧ runSignal x s = .next s) := by
  cases h : decode x with
  | ok i => exact .inl ⟨i, rfl, by simp only [runSignal, h]⟩
  | error e =>
    by_cases he : e = .noTick
    · subst he; exact .inr (.inr ⟨rfl, by simp only [runSignal, h]⟩)
    · refine .inr (.inl ⟨e, rfl, he, ?_⟩)
      cases e <;> first | exact absurd rfl he | (simp only [runSignal, h]; rfl)

/-- What a host transaction can do. -/
theorem hostStep_cases {x : HostTxn} {s t : State} (h : hostStep x s = .next t) :
    (∃ replies, t = { s with replies := replies }) ∨
      (∃ i, (signalOfTxn x).bind instrOfSignal = some i ∧ exec i s = .next t) ∨
      t = { s with result := ⟨false, false, 3⟩ } := by
  cases x with
  | read a => cases h; exact .inl ⟨_, rfl⟩
  | write a v =>
    rw [hostStep, regWrite] at h
    split at h
    · next ha =>
      rcases runSignal_cases (.cmdWord v) s with ⟨i, hd, g⟩ | ⟨e, -, -, g⟩ | ⟨-, g⟩ <;> rw [g] at h
      · exact .inr (.inl ⟨i, by simp [signalOfTxn, ha, instrOfSignal, hd], h⟩)
      · cases h; exact .inr (.inr rfl)
      · cases h; exact .inl ⟨s.replies, rfl⟩
    · cases h; exact .inl ⟨s.replies, rfl⟩

/-- Everything a step can do: it only moves ports, or it runs the one instruction the next input carries, or it raises
`IllegalCommand`, or it resets; the inputs still to come may change in every case. -/
theorem step_cases {s t : State} (h : step s = .next t) :
    ∃ inputs, (∃ replies, t = { s with inputs := inputs, replies := replies }) ∨
      (∃ i, nextInstr s = some i ∧ exec i { s with inputs := inputs } = .next t) ∨
      t = { s with inputs := inputs, result := ⟨false, false, 3⟩ } ∨
      (s.inputs = .rst :: inputs ∧ t = resetBlock { s with inputs := inputs }) := by
  have tickSignal : ∀ (inputs : List Input) (v : BitVec 1) (o : Option Instr), instrOfSignal (.tickIn v) = o →
      runSignal (.tickIn v) { s with inputs := inputs } = .next t →
      (∃ replies, t = { s with inputs := inputs, replies := replies }) ∨
        (∃ i, o = some i ∧ exec i { s with inputs := inputs } = .next t) ∨
        t = { s with inputs := inputs, result := ⟨false, false, 3⟩ } := by
    intro inputs v o ho h
    rcases runSignal_cases (.tickIn v) { s with inputs := inputs } with ⟨i, hd, g⟩ | ⟨e, -, -, g⟩ | ⟨-, g⟩ <;>
      rw [g] at h
    · exact .inr (.inl ⟨i, by simp [← ho, instrOfSignal, hd], h⟩)
    · cases h; exact .inr (.inr rfl)
    · cases h; exact .inl ⟨s.replies, rfl⟩
  have widen : ∀ {A B C D : Prop}, A ∨ B ∨ C → A ∨ B ∨ C ∨ D :=
    fun h => h.elim .inl fun h => .inr (h.elim .inl fun h => .inr (.inl h))
  rw [step] at h
  split at h
  · next h0 => cases h; exact ⟨s.inputs, .inl ⟨s.replies, rfl⟩⟩
  · next i rest h0 =>
    have hn : nextInstr s = instrOfInput i := by rw [nextInstr, h0]; rfl
    rw [hn]
    cases i with
    | host x => exact ⟨rest, widen (hostStep_cases h)⟩
    | tickIn v => exact ⟨rest, widen (tickSignal rest v _ rfl h)⟩
    | rst => cases h; exact ⟨rest, .inr (.inr (.inr ⟨h0, rfl⟩))⟩
    | hostWithTick x => exact ⟨_, widen (tickSignal (.host x :: rest) 1 _ rfl h)⟩
    | tickDuringHost x => exact ⟨.tickIn 1 :: rest, widen (hostStep_cases h)⟩
    | tickDuringTick => simp [serveInput] at h
    | bridge offset x =>
      simp only [serveInput] at h
      split at h
      · next y hy =>
        have hb : instrOfInput (.bridge offset x) = (signalOfTxn y).bind instrOfSignal := by rw [instrOfInput, hy]; rfl
        rw [hb]
        exact ⟨rest, widen (hostStep_cases h)⟩
      · simp at h

/-- The run of this machine is the host's own run of its core. -/
theorem runSteps_eq_core (k : Nat) (s : State) : runSteps k s = Host.Core.run Sys2Proof.core k s := by
  induction k generalizing s with
  | zero => rfl
  | succ k ih =>
    have hc : Sys2Proof.core.step s = step s := rfl
    simp only [runSteps, Host.Core.run, hc]
    cases step s with
    | next t => exact ih t
    | fault r => rfl
    | refused r => rfl

/-- A signal always has a next state, and leaves the inputs still to come. -/
theorem runSignal_next (x : Signal) (s : State) : ∃ t, runSignal x s = .next t ∧ t.inputs = s.inputs := by
  rcases runSignal_cases x s with ⟨i, -, h⟩ | ⟨e, -, -, h⟩ | ⟨-, h⟩ <;> rw [h]
  · obtain ⟨t, ht⟩ := exec_next i s
    exact ⟨t, ht, (exec_ports ht).2.1⟩
  · exact ⟨_, rfl, rfl⟩
  · exact ⟨_, rfl, rfl⟩

/-- So has a host transaction. -/
theorem hostStep_next (x : HostTxn) (s : State) : ∃ t, hostStep x s = .next t ∧ t.inputs = s.inputs := by
  cases x with
  | read a => exact ⟨_, rfl, rfl⟩
  | write a v =>
    rw [hostStep, regWrite]
    split
    · exact runSignal_next _ s
    · exact ⟨_, rfl, rfl⟩

/-- A step that takes a pulse runs TICK. -/
theorem step_tick {s : State} {rest : List Input} (h : s.inputs = .tickIn 1 :: rest) :
    step s = execTick { s with inputs := rest } := by
  have hd : decode (.tickIn 1) = .ok .tick := rfl
  rw [step, h]
  simp only [serveInput, runSignal, hd]
  rfl

/-- A run's last step, taken apart. -/
theorem runSteps_succ (k : Nat) (s : State) :
    runSteps (k + 1) s =
      match runSteps k s with
      | .next t => step t
      | .fault r => .fault r
      | .refused r => .refused r := by
  induction k generalizing s with
  | zero =>
    simp only [runSteps]
    cases step s <;> rfl
  | succ k ih =>
    rw [runSteps]
    cases h : step s with
    | next t => simp only; rw [ih t]; simp only [runSteps, h]
    | fault r => simp only [runSteps, h]
    | refused r => simp only [runSteps, h]

end Sys2Proof.Machine
end

