-- ==== Sys2Proof/Laws/Invariant.lean ====
section
/-! SUPPORT. The invariant of the reachable states, operation by operation (spec/10_state.md rule R36,
spec/41_channel_registry.md rule R85). -/

namespace Sys2Proof.Machine

/-- A table that is its live pins in order and then empty slots meets the registry's clauses of the invariant. -/
theorem registry_of_table {slots : List Slot} {live : BitVec 8} {pins : List Pin} {n capacity : Nat}
    (hs : slots = tableOf pins n) (hl : live.toNat = pins.length) (hn : pins.length + n = capacity) :
    slots.length = capacity ∧ (∀ i (h : i < slots.length), (slots[i]'h).valid = true ↔ i < live.toNat) ∧
      (live.toNat = slots.countP Slot.valid ∧ live.toNat ≤ capacity) ∧ ∀ x ∈ slots, x.valid = false → x.pin = 0 := by
  subst hs
  refine ⟨by simpa using hn, fun i h => ?_, ⟨by rw [tableOf_countP, hl], by omega⟩, fun x hx hv => ?_⟩
  · by_cases hi : i < pins.length
    · simp [tableOf, List.getElem_append_left, hi, hl]
    · have : (tableOf pins n)[i].valid = false := by
        simp only [tableOf]
        rw [List.getElem_append_right (by simpa using hi)]
        simp [Slot.empty]
      simp [this, hl, hi]
  · rcases List.mem_append.1 hx with hx | hx
    · obtain ⟨q, -, rfl⟩ := List.mem_map.1 hx
      simp at hv
    · obtain ⟨-, rfl⟩ := List.mem_replicate.1 hx
      rfl

/-- Replacing the registry by a table of live pins, and `RESULT` by a legal one, keeps the invariant. -/
theorem BlockInv.withTable {s : State} (h : BlockInv s) {live : BitVec 8} {pins : List Pin} {n : Nat}
    {duty : Vector DutyPair 256} {result : Result} {trace : List Event} (hl : live.toNat = pins.length)
    (hn : pins.length + n = s.config.maxChannels) (hr : result.err.toNat ≤ 3) :
    BlockInv { s with slots := tableOf pins n, live := live, duty := duty, result := result, trace := trace } := by
  obtain ⟨h1, h2, h3, h4⟩ := registry_of_table (live := live) rfl hl hn
  exact { h with slots_sized := h1, prefix_live := h2, live_count := h3, empty_pin := h4, err_legal := hr }

/-- Fields the invariant does not read, and `RESULT`, may change. -/
theorem BlockInv.withResult {s : State} (h : BlockInv s) {duty : Vector DutyPair 256} {result : Result} {trace : List Event}
    {replies : List Reply} {inputs : List Input} (hr : result.err.toNat ≤ 3) :
    BlockInv { s with duty := duty, result := result, trace := trace, replies := replies, inputs := inputs } :=
  { h with err_legal := hr }

/-- TEARDOWN's two writes keep the invariant (R107). -/
theorem BlockInv.disarmed {s : State} (h : BlockInv s) : BlockInv { s with armed := false, run := false } :=
  { h with
    untouched := fun hi => let ⟨_, _, h3, h4, h5⟩ := h.untouched hi; ⟨rfl, rfl, h3, h4, h5⟩
    armed_run := rfl
    armed_init := fun ha => Bool.noConfusion ha }

/-- REGISTER and its report keep the invariant. -/
theorem BlockInv.registerAndReport {s : State} (h : BlockInv s) (p : Pin) : BlockInv (registerAndReport p s) := by
  obtain ⟨ht, hl⟩ := h.table
  have hc := h.config_valid.1
  have hle := h.live_count.2
  simp only [Machine.registerAndReport, register]
  rcases hn : s.config.maxChannels - s.live.toNat with - | n
  · rw [ht, hn, tableOf_claim_full]
    exact h.withResult (by decide)
  · rw [ht, hn, tableOf_claim]
    refine h.withTable (live := s.live + 1) ?_ ?_ (by decide)
    · simp [BitVec.toNat_add, hl]; omega
    · simp [hl]; omega

/-- UNREGISTER and its report keep the invariant. -/
theorem BlockInv.removeAndReport {s : State} (h : BlockInv s) (p : Pin) : BlockInv (removeAndReport p s) := by
  obtain ⟨ht, hl⟩ := h.table
  have hle := h.live_count.2
  have hc := h.config_valid.1
  have step : ∀ t : State, BlockInv t → ∀ found empty : Bool,
      BlockInv (setResult found empty 0 (if empty then teardown t else t)) := by
    intro t h found empty
    cases empty with
    | false => exact h.withResult (Nat.zero_le 3)
    | true => exact h.disarmed.withResult (Nat.zero_le 3)
  refine step _ ?_ _ _
  simp only [unregister]
  by_cases hp : p ∈ livePins s
  · have hr : releaseSlot p s.slots =
        some (tableOf ((livePins s).erase p) (s.config.maxChannels - s.live.toNat + 1)) := by
      conv_lhs => rw [ht]
      exact tableOf_release hp _
    rw [hr]
    have hpos : 0 < (livePins s).length := List.length_pos_of_mem hp
    have hlen := List.length_erase_of_mem hp
    refine h.withTable (live := s.live - 1) (result := s.result) ?_ ?_ h.err_legal
    · rw [hlen, BitVec.toNat_sub]; simp; omega
    · rw [hlen]; omega
  · have hr : releaseSlot p s.slots = none := by
      conv_lhs => rw [ht]
      exact tableOf_release_absent hp _
    rw [hr]
    exact h

/-- INIT's preparation keeps the invariant. -/
theorem BlockInv.prepareChannel {s : State} (h : BlockInv s) {f : Freq} (hf : FrequencyInRange s.config f) (p : Pin) :
    BlockInv (prepareChannel p f s) := by
  have hres := h.config_valid.2.2.2.1
  cases hi : s.init with
  | true =>
    rw [prepareChannel_of_init hi hf]
    exact h.withResult h.err_legal
  | false =>
    have hc := choice_of_prescaleSelect h.config_valid.2.2.2.2.1 (s.config.fClk / (f.toNat * 256) / 2)
    rw [prepareChannel_of_first hi hf hc]
    have hlt := choice_reload_lt (by omega) hc
    exact { h with
      untouched := fun h0 => Bool.noConfusion h0
      armed_run := rfl
      armed_init := fun _ => rfl
      sel_legal := .inr (choice_sel_mem hc)
      reload_legal := by
        show (BitVec.ofNat 16 _).toNat < _
        rw [BitVec.toNat_ofNat]
        exact lt_of_le_of_lt (Nat.mod_le _ _) hlt }

/-- Every instruction of a family keeps the invariant: TICK. -/
theorem BlockInv.service {s : State} (h : BlockInv s) (ha : s.armed = true) : BlockInv (service s) := by
  rw [(service_frame s).1]
  have hi := h.armed_init ha
  exact { h with untouched := fun h0 => absurd (hi.symm.trans h0) Bool.noConfusion }

/-- Reset gives a state of the invariant (R35). -/
theorem BlockInv.resetBlock {s : State} (h : BlockInv s) : BlockInv (resetBlock s) := by
  obtain ⟨h1, h2, h3, h4⟩ := registry_of_table (slots := List.replicate s.config.maxChannels Slot.empty) (live := 0)
    (pins := []) (n := s.config.maxChannels) (capacity := s.config.maxChannels) rfl rfl (by simp)
  have hres := h.config_valid.2.2.2.1
  exact {
    config_valid := h.config_valid
    slots_sized := h1
    prefix_live := h2
    live_count := h3
    untouched := fun _ => ⟨rfl, rfl, rfl, rfl, rfl⟩
    armed_run := rfl
    armed_init := fun ha => Bool.noConfusion ha
    empty_pin := h4
    err_legal := Nat.zero_le 3
    sel_legal := .inl rfl
    reload_legal := by show 0 < s.config.res; omega }

/-- The dispatch iteration visits exactly the live pins (R84). -/
theorem BlockInv.dispatchPins_eq {s : State} (h : BlockInv s) : dispatchPins s.slots = livePins s := by
  conv_lhs => rw [h.table.1]
  exact tableOf_dispatchPins _ _

end Sys2Proof.Machine
end

