-- ==== Sys2Proof/Laws/PerInstr.lean ====
section
/-! SUPPORT. Laws stated one instruction at a time. TableRow: the encoding of an instruction carries the bits that its row
of the opcode table fixes (spec/30_encoding.md rules R55, R62). -/

namespace Sys2Proof.Laws

/-- The `match` and `mask` of an instruction's row (R55); TICK is no word. -/
def TableRow.bits : Instr → Option (Word × Word)
  | .nop => some (0x00000000, 0xFFFFFFFF)
  | .init _ _ => some (0x10000000, 0xFF000000)
  | .enable _ => some (0x20000000, 0xFF00FFFF)
  | .disable _ => some (0x30000000, 0xFF00FFFF)
  | .write _ _ => some (0x40000000, 0xFF00FF00)
  | .destroy _ => some (0x50000000, 0xFF00FFFF)
  | .tick => none

/-- The encoding of an instruction has its row's fixed bits; TICK is the one-bit string 1. -/
def TableRow.Statement (i : Instr) : Prop :=
  match encode i, TableRow.bits i with
  | .cmdWord w, some row => w &&& row.2 = row.1
  | .tickIn v, none => v = 1
  | .cmdWord _, none => False
  | .tickIn _, some _ => False

/-- The masks keep all of `OP` and `RSV`, and of `PIN` and `ARG` what is given. -/
theorem packFields_and {hi : BitVec 4} {mid m : BitVec 8} {lo a : BitVec 16} {mask : Word}
    (hop : opField mask = BitVec.allOnes 4) (hpin : pinField mask = m) (harg : argField mask = a) :
    packFields hi mid lo &&& mask = packFields hi (mid &&& m) (lo &&& a) := by
  rw [word_eq_iff]
  simp only [opField_and, rsvField_and, pinField_and, argField_and, opField_packFields, rsvField_packFields,
    pinField_packFields, argField_packFields, hop, hpin, harg, BitVec.and_allOnes, true_and, and_true]
  exact BitVec.zero_and

theorem TableRow.nop : TableRow.Statement .nop :=
  show packFields 0 0 0 &&& 0xFFFFFFFF = 0x00000000 by decide

theorem TableRow.init (p : Pin) (f : Freq) : TableRow.Statement (.init p f) := by
  refine (packFields_and (m := 0) (a := 0) (by decide) (by decide) (by decide)).trans ?_
  simp; decide

theorem TableRow.enable (p : Pin) : TableRow.Statement (.enable p) := by
  refine (packFields_and (m := 0) (a := BitVec.allOnes 16) (by decide) (by decide) (by decide)).trans ?_
  simp; decide

theorem TableRow.disable (p : Pin) : TableRow.Statement (.disable p) := by
  refine (packFields_and (m := 0) (a := BitVec.allOnes 16) (by decide) (by decide) (by decide)).trans ?_
  simp; decide

theorem TableRow.write (p : Pin) (d : Duty) : TableRow.Statement (.write p d) := by
  refine (packFields_and (m := 0) (a := 0xFF00) (by decide) (by decide) (by decide)).trans ?_
  have h : d.setWidth 16 &&& 0xFF00#16 = 0#16 := by
    have := (argField_and_high (packFields 4 p (d.setWidth 16))).2 (argHighField_packFields 4 p d)
    simpa using this
  simp [h]; decide

theorem TableRow.destroy (p : Pin) : TableRow.Statement (.destroy p) := by
  refine (packFields_and (m := 0) (a := BitVec.allOnes 16) (by decide) (by decide) (by decide)).trans ?_
  simp; decide

theorem TableRow.tick : TableRow.Statement .tick := rfl

end Sys2Proof.Laws
end

