-- ==== Sys2Proof/Laws/Trace.lean ====
section
/-! SUPPORT. What the event trace tells: how the environment shadow (spec/10_state.md rule R26) reads a longer trace, and
what one serviced tick adds to it (spec/42_cycle_servicer.md rules R90 to R95). -/

namespace Sys2Proof.Machine

theorem sourceArmed_append (a b : List Event) : sourceArmed (a ++ b) = b.foldl armedAfter (sourceArmed a) := by
  simp [sourceArmed]

theorem sourceCounting_append (a b : List Event) :
    sourceCounting (a ++ b) = b.foldl countingAfter (sourceCounting a) := by
  simp [sourceCounting]

theorem pinLevel_append (a b : List Event) (p : Pin) :
    pinLevel (a ++ b) p = b.foldl (levelAfter p) (pinLevel a p) := by
  simp [pinLevel]

/-- Pin events tell nothing of the tick source. -/
theorem foldl_pin_events {es : List Event} (h : ∀ e ∈ es, drivesPin e = true) (x y : Bool) :
    es.foldl armedAfter x = x ∧ es.foldl countingAfter y = y := by
  induction es with
  | nil => exact ⟨rfl, rfl⟩
  | cons e es ih =>
    have he := h e (by simp)
    have := ih fun e' h' => h e' (by simp [h'])
    cases e <;> simp_all [drivesPin, armedAfter, countingAfter]

/-- The level a run of pin events leaves. -/
theorem foldl_level_map (p : Pin) (g : Pin → Bool) (pins : List Pin) (x : Option Bool) :
    (pins.map (fun q => Event.setPinLevel q (g q))).foldl (levelAfter p) x = if p ∈ pins then some (g p) else x := by
  induction pins generalizing x with
  | nil => rfl
  | cons q pins ih =>
    simp only [List.map_cons, List.foldl_cons, ih, levelAfter, List.mem_cons]
    by_cases h : q = p
    · subst h; by_cases hL : q ∈ pins <;> simp [hL]
    · by_cases hL : p ∈ pins <;> simp [hL, h, Ne.symm h]

/-- How often a run of pin events drives a pin. -/
theorem countP_drives_map (p : Pin) (g : Pin → Bool) (pins : List Pin) :
    (pins.map (fun q => Event.setPinLevel q (g q))).countP (drives p) = pins.count p := by
  rw [List.countP_map, List.count]
  congr 1
  funext q
  have hd : drives p (Event.setPinLevel q (g q)) = decide (q = p) := by cases g q <;> simp [drives]
  simp only [Function.comp, hd]
  by_cases h : q = p <;> simp [h]

theorem service_trace_at_boundary {s : State} (h : s.cycle = 0) :
    (service s).trace = s.trace ++ (dispatchPins s.slots).map
      (fun q => Event.setPinLevel q (decide ((dutyAt s q).p ≠ 0))) :=
  (servicePins_at_boundary (dispatchPins s.slots) h).2.2

theorem service_trace_off_boundary {s : State} (h : s.cycle ≠ 0) :
    (service s).trace = s.trace ++ ((dispatchPins s.slots).filter
      (fun q => decide (s.cycle = (dutyAt s q).c ∧ (dutyAt s q).c ≠ 255))).map (fun q => Event.setPinLevel q false) :=
  congrArg State.trace (servicePins_off_boundary (dispatchPins s.slots) h)

/-- A serviced tick emits pin events only. -/
theorem service_events (s : State) : ∃ es, (service s).trace = s.trace ++ es ∧ ∀ e ∈ es, drivesPin e = true := by
  by_cases h : s.cycle = 0
  · refine ⟨_, service_trace_at_boundary h, fun e he => ?_⟩
    obtain ⟨q, -, rfl⟩ := List.mem_map.1 he
    rfl
  · refine ⟨_, service_trace_off_boundary h, fun e he => ?_⟩
    obtain ⟨q, -, rfl⟩ := List.mem_map.1 he
    rfl

/-- What a serviced tick does to the level of a live pin. -/
theorem service_level {s : State} {p : Pin} (hm : p ∈ dispatchPins s.slots) :
    pinLevel (service s).trace p =
      if s.cycle = 0 then some (decide ((dutyAt s p).p ≠ 0))
      else if s.cycle = (dutyAt s p).c ∧ (dutyAt s p).c ≠ 255 then some false else pinLevel s.trace p := by
  by_cases h : s.cycle = 0
  · rw [service_trace_at_boundary h, pinLevel_append, foldl_level_map p (fun q => decide ((dutyAt s q).p ≠ 0)),
      if_pos hm, if_pos h]
  · rw [service_trace_off_boundary h, pinLevel_append, foldl_level_map p (fun _ => false), if_neg h]
    simp [hm]

/-- How many events of a serviced tick drive a pin. -/
theorem service_count (s : State) (p : Pin) :
    (service s).trace.countP (drives p) = s.trace.countP (drives p) +
      if s.cycle = 0 then (dispatchPins s.slots).count p
      else if s.cycle = (dutyAt s p).c ∧ (dutyAt s p).c ≠ 255 then (dispatchPins s.slots).count p else 0 := by
  by_cases h : s.cycle = 0
  · rw [service_trace_at_boundary h, List.countP_append,
      countP_drives_map p (fun q => decide ((dutyAt s q).p ≠ 0)), if_pos h]
  · rw [service_trace_off_boundary h, List.countP_append, countP_drives_map p (fun _ => false), if_neg h]
    split
    · next hc => rw [List.count_filter]; simpa using hc
    · next hc =>
      rw [List.count_eq_zero_of_not_mem]
      simp only [List.mem_filter, decide_eq_true_eq, not_and]
      intro _
      simpa using hc

/-- The duty pairs after a serviced tick. -/
theorem service_duty (s : State) (p : Pin) :
    dutyAt (service s) p =
      if s.cycle = 0 ∧ p ∈ dispatchPins s.slots then ⟨(dutyAt s p).p, (dutyAt s p).p⟩ else dutyAt s p := by
  by_cases h : s.cycle = 0
  · have h2 : dutyAt (service s) p = _ := (servicePins_at_boundary (dispatchPins s.slots) h).2.1 p
    rw [h2]
    simp [h]
  · rw [service, servicePins_off_boundary _ h, if_neg fun hc => h hc.1]
    rfl

end Sys2Proof.Machine
end

