-- ==== Sys2Proof/Laws/Window.lean ====
section
/-! SUPPORT. The register window: what a read depends on (spec/20_memory.md rule R39). -/

namespace Sys2Proof.Machine

/-- A read sees only the block and the parameters: neither the trace, nor earlier answers, nor the inputs to come. -/
theorem regRead_ports (a : WordAddr) (s : State) (trace : List Event) (replies : List Reply) (inputs : List Input) :
    regRead a { s with trace := trace, replies := replies, inputs := inputs } = regRead a s := by
  simp only [regRead, resultNat, statusNat, tcfgNat, paramNat, slotNat, dutyNat]

/-- `PARAM` depends on the parameters alone (R29). -/
theorem regRead_param {s t : State} (h : t.config = s.config) : regRead 5 t = regRead 5 s := by
  simp [regRead, paramNat, h]

/-- The record a pin names, as a row of the window reads it. -/
theorem dutyNat_pin (s : State) (p : Pin) : dutyNat s p.toNat = (dutyAt s p).p.toNat * 256 + (dutyAt s p).c.toNat := by
  have hp := pin_lt p
  simp [dutyNat, dutyAt, hp, Nat.shiftLeft_eq]

end Sys2Proof.Machine
end

