-- ==== Sys2Proof/Tests/Slice0.lean ====
section
/-! SUPPORT. Tests. Expected results are those of spec/95_test_vectors.md (the section is named at each group) or are read
off the cited rule; none is an answer of the model. The witnesses at the end show that the hypotheses of the obligations
can be met together, at boundary values of each clause. -/

namespace Sys2Proof.Machine.Tests

/-- An armed engine under `P0` whose live pins are the given ones; every duty pair is (0, 0). -/
def armedWith (pins : List Pin) : State :=
  { State.reset with
    slots := pins.map (⟨true, ·⟩) ++ List.replicate (4 - pins.length) Slot.empty
    live := BitVec.ofNat 8 pins.length
    init := true, armed := true, run := true, tcfgSel := 1, tcfgReload := 104 }

/-- The state after one step that takes the given input. -/
def after (s : State) (i : Input) : State :=
  match step { s with inputs := [i] } with
  | .next t => t
  | .fault _ => s
  | .refused _ => s

/-- A word written to `CMD`. -/
def cmd (w : Word) : Input := .host (.write 0 w)

/-- The words of the events a step adds to an empty trace. -/
def eventWords (t : State) : List Nat := t.trace.map (fun e => (eventWord e).toNat)

/-- What `RESULT` reads as. -/
def resultReads (t : State) : Nat := (regRead 1 t).toNat

/-! ### Well-formedness: each check accepts the bounds of R7 and R64 and refuses what lies beyond -/

theorem test_p0_valid : Config.P0.Valid := by decide

theorem test_channels_bounds :
    ¬({ Config.P0 with maxChannels := 0 } : Config).ChannelsOk ∧ ¬({ Config.P0 with maxChannels := 17 } : Config).ChannelsOk ∧
      ({ Config.P0 with maxChannels := 16 } : Config).ChannelsOk := by decide

theorem test_frequency_bounds :
    ¬({ Config.P0 with maxFrequency := 0 } : Config).FrequencyOk ∧
      ¬({ Config.P0 with maxFrequency := 65536 } : Config).FrequencyOk ∧
      ({ Config.P0 with maxFrequency := 65535 } : Config).FrequencyOk := by decide

theorem test_clock_bounds :
    ¬({ Config.P0 with fClk := 0 } : Config).ClockOk ∧ ¬({ Config.P0 with fClk := 4294967296 } : Config).ClockOk ∧
      ({ Config.P0 with fClk := 4294967295 } : Config).ClockOk := by decide

theorem test_resolution_bounds :
    ¬({ Config.P0 with res := 1 } : Config).ResolutionOk ∧ ¬({ Config.P0 with res := 65537 } : Config).ResolutionOk ∧
      ({ Config.P0 with res := 65536 } : Config).ResolutionOk := by decide

theorem test_prescale_nonempty : ¬({ Config.P0 with prescale := [] } : Config).PrescaleNonempty := by decide

theorem test_prescale_rising :
    ¬({ Config.P0 with prescale := [⟨3, 1⟩, ⟨3, 2⟩] } : Config).PrescaleRising := by decide

theorem test_prescale_bounded :
    ¬({ Config.P0 with prescale := [⟨0, 1⟩, ⟨32, 2⟩] } : Config).PrescaleBounded := by decide

theorem test_register_names :
    (RegName.slot 4).wellFormed Config.P0 = false ∧ (RegName.slot 3).wellFormed Config.P0 = true ∧
      (RegName.duty 256).wellFormed Config.P0 = false ∧ (RegName.duty 255).wellFormed Config.P0 = true := by decide

theorem test_refused_pins :
    assemble Config.P0 (.init 256 1) = none ∧ assemble Config.P0 (.initDefault 256) = none ∧
      assemble Config.P0 (.enable 256) = none ∧ assemble Config.P0 (.disable 256) = none ∧
      assemble Config.P0 (.write 256 0) = none ∧ assemble Config.P0 (.destroy 256) = none := by decide

theorem test_refused_operands :
    assemble Config.P0 (.init 0 65536) = none ∧ assemble Config.P0 (.write 0 256) = none ∧
      assemble Config.P0 (.read (.slot 4)) = none := by decide

/-! ### Decoding: words written out bit by bit from R53 to R55, and the illegal words of spec/95 section 2.1 -/

theorem test_decode_nop : decode (.cmdWord 0b0000_0000_00000000_0000000000000000#32) = .ok .nop := by decide

theorem test_decode_init : decode (.cmdWord 0b0001_0000_00000101_0000000100101100#32) = .ok (.init 5 300) := by decide

theorem test_decode_init_top : decode (.cmdWord 0x10FFFFFF) = .ok (.init 255 65535) := by decide

theorem test_decode_enable : decode (.cmdWord 0b0010_0000_00000110_0000000000000000#32) = .ok (.enable 6) := by decide

theorem test_decode_disable : decode (.cmdWord 0b0011_0000_00000101_0000000000000000#32) = .ok (.disable 5) := by decide

theorem test_decode_write : decode (.cmdWord 0b0100_0000_00000101_00000000_11111111#32) = .ok (.write 5 255) := by decide

theorem test_decode_destroy : decode (.cmdWord 0b0101_0000_00000110_0000000000000000#32) = .ok (.destroy 6) := by decide

theorem test_decode_tick : decode (.tickIn 0b1#1) = .ok .tick ∧ decode (.tickIn 0b0#1) = .error .noTick := by decide

theorem test_decode_illegal :
    decode (.cmdWord 0x00010000) = .error .nonzeroPin ∧ decode (.cmdWord 0x00000001) = .error .nonzeroArg ∧
      decode (.cmdWord 0x01000000) = .error .reservedBits ∧ decode (.cmdWord 0x1FFFFFFF) = .error .reservedBits ∧
      decode (.cmdWord 0x20060001) = .error .nonzeroArg ∧ decode (.cmdWord 0x3005FFFF) = .error .nonzeroArg ∧
      decode (.cmdWord 0x40050100) = .error .nonzeroArgHigh ∧ decode (.cmdWord 0x60000000) = .error .reservedOp ∧
      decode (.cmdWord 0xF0000000) = .error .reservedOp := by decide

/-- Every row of the opcode table, placed before the machine after reset, decodes to its instruction. -/
theorem test_table_rows :
    decodeTableWord 32 0x00000000 = some .nop ∧ decodeTableWord 32 0x10000001 = some (.init 0 1) ∧
      decodeTableWord 32 0x20000000 = some (.enable 0) ∧ decodeTableWord 32 0x30FF0000 = some (.disable 255) ∧
      decodeTableWord 32 0x40000001 = some (.write 0 1) ∧ decodeTableWord 32 0x50010000 = some (.destroy 1) ∧
      decodeTableWord 8 1 = some .tick := by decide

/-! ### Event words (R60, R61) and their spelling (R66) -/

theorem test_event_words :
    eventWord (.setPinLevel 5 true) = 0x10050001 ∧ eventWord (.setPinLevel 5 false) = 0x10050000 ∧
      eventWord (.setOutputMode 5) = 0x20050000 ∧ eventWord (.configureRate 1 104) = 0x30010068 := by decide

theorem test_event_spelling :
    eventText (.setPinLevel 5 true) = "PIN(5)=1" ∧ eventText (.setOutputMode 9) = "MODE(9)" ∧
      eventText (.configureRate 1 104) = "RATE(1,104)" := by decide

/-! ### CONFIGURE (spec/95 section 2.2): an exact fit, a quotient equal to `RES`, a saturation -/

theorem test_configure_300 : prescaleSelect Config.P0 (cycleCount 16000000 300) = (1, 104) := by decide

theorem test_configure_122 : prescaleSelect Config.P0 (cycleCount 16000000 122) = (2, 32) := by decide

theorem test_configure_1 : prescaleSelect Config.P0 (cycleCount 16000000 1) = (5, 244) := by decide

theorem test_configure_saturates :
    prescaleSelect { Config.P0 with prescale := [⟨0, 1⟩] } (cycleCount 16000000 100) = (1, 255) := by decide

/-! ### The registry (spec/95 section 2.3) -/

theorem test_unregister_first :
    releaseSlot 2 (armedWith [2, 3, 4, 5]).slots = some (armedWith [3, 4, 5]).slots := by decide

theorem test_unregister_duplicate :
    releaseSlot 5 (armedWith [5, 6, 5]).slots = some (armedWith [6, 5]).slots := by decide

/-! ### One step per instruction (spec/95 sections 2.4 and 2.5) -/

theorem test_nop_keeps_result :
    resultReads (after { State.reset with result := ⟨false, false, 2⟩ } (cmd 0x00000000)) = 0x20 := by decide

theorem test_init_first :
    eventWords (after State.reset (cmd 0x1005012C)) = [0x30010068, 0x40000000, 0x50000000, 0x20050000] ∧
      regRead 2 (after State.reset (cmd 0x1005012C)) = 0x00000107 ∧
      regRead 4 (after State.reset (cmd 0x1005012C)) = 0x00010068 ∧
      regRead 16 (after State.reset (cmd 0x1005012C)) = 0x80000005 := by decide

theorem test_init_range_before_full :
    resultReads (after (armedWith [1, 2, 3, 4]) (cmd 0x1009012D)) = 0x10 ∧
      resultReads (after (armedWith [1, 2, 3, 4]) (cmd 0x1009012C)) = 0x20 ∧
      eventWords (after (armedWith [1, 2, 3, 4]) (cmd 0x1009012C)) = [0x20090000] := by decide

theorem test_enable_live_pin :
    (after (setDuty 5 ⟨100, 100⟩ (armedWith [5])) (cmd 0x20050000)).slots = (armedWith [5, 5]).slots ∧
      dutyAt (after (setDuty 5 ⟨100, 100⟩ (armedWith [5])) (cmd 0x20050000)) 5 = ⟨0, 0⟩ := by decide

theorem test_enable_full : resultReads (after (armedWith [1, 2, 3, 4]) (cmd 0x20050000)) = 0x20 := by decide

theorem test_disable_first_of_two :
    (after (armedWith [5, 6]) (cmd 0x30050000)).slots = (armedWith [6]).slots ∧
      resultReads (after (armedWith [5, 6]) (cmd 0x30050000)) = 0x1 ∧
      eventWords (after (armedWith [5, 6]) (cmd 0x30050000)) = [] := by decide

theorem test_disable_on_empty_table :
    resultReads (after State.reset (cmd 0x30060000)) = 0x2 ∧
      eventWords (after State.reset (cmd 0x30060000)) = [0x60000000, 0x70000000] := by decide

theorem test_write_stores_pending :
    dutyAt (after (setDuty 5 ⟨7, 9⟩ (armedWith [5])) (cmd 0x40050080)) 5 = ⟨7, 128⟩ ∧
      dutyAt (after (setDuty 5 ⟨7, 9⟩ (armedWith [5])) (cmd 0x40050080)) 6 = ⟨0, 0⟩ := by decide

theorem test_destroy_last :
    eventWords (after (armedWith [6]) (cmd 0x50060000)) = [0x60000000, 0x70000000] ∧
      resultReads (after (armedWith [6]) (cmd 0x50060000)) = 0x3 ∧
      regRead 2 (after (armedWith [6]) (cmd 0x50060000)) = 0x00000001 := by decide

theorem test_tick_commits :
    eventWords (after (setDuty 5 ⟨0, 10⟩ (armedWith [5, 6])) (.tickIn 1)) = [0x10050001, 0x10060000] ∧
      dutyAt (after (setDuty 5 ⟨0, 10⟩ (armedWith [5, 6])) (.tickIn 1)) 5 = ⟨10, 10⟩ := by decide

theorem test_tick_255_bars_the_edge :
    eventWords (after (setDuty 5 ⟨255, 0⟩ { armedWith [5] with cycle := 255 }) (.tickIn 1)) = [] ∧
      eventWords (after (setDuty 5 ⟨254, 0⟩ { armedWith [5] with cycle := 254 }) (.tickIn 1)) = [0x10050000] ∧
      (after (setDuty 5 ⟨255, 0⟩ { armedWith [5] with cycle := 255 }) (.tickIn 1)).cycle = 0 := by decide

theorem test_illegal_word : resultReads (after (armedWith [5]) (cmd 0x60000000)) = 0x30 := by decide

/-! ### Ports (spec/95 sections 2.6 and 2.7, R44, R45, R121, R124) -/

theorem test_read_param : (after State.reset (.host (.read 5))).replies = [⟨5, 0x012C0004⟩] := by decide

theorem test_write_to_read_only :
    regRead 261 (after (setDuty 5 ⟨3, 4⟩ (armedWith [5])) (.host (.write 261 0xFFFFFFFF))) = 0x00000403 := by decide

theorem test_bridge_lanes :
    resultReads (after State.reset (.bridge 0 (.write [0x00, 0x00, 0x06, 0x20]))) = 0x1 ∧
      regRead 16 (after State.reset (.bridge 0 (.write [0x00, 0x00, 0x06, 0x20]))) = 0x80000006 := by decide

theorem test_bridge_refuses :
    step { State.reset with inputs := [.bridge 2 (.read 4)] } = .refused .misalignedAccess ∧
      step { State.reset with inputs := [.bridge 4 (.read 2)] } = .refused .misalignedAccess := ⟨rfl, rfl⟩

theorem test_overrun_refused : step { State.reset with inputs := [.tickDuringTick] } = .refused .tickOverrun := rfl

theorem test_pulse_comes_first :
    (after (armedWith [5]) (.hostWithTick (.write 0 0x30050000))).cycle = 1 ∧
      (after (armedWith [5]) (.hostWithTick (.write 0 0x30050000))).inputs = [cmd 0x30050000] := by decide

theorem test_reset_disarms :
    regRead 2 (after (armedWith [1, 2, 3]) .rst) = 0 ∧ regRead 4 (after (armedWith [1, 2, 3]) .rst) = 0 ∧
      regRead 5 (after (armedWith [1, 2, 3]) .rst) = 0x012C0004 := by decide

/-! ### The assembler (R64, R65) -/

theorem test_parse_lines :
    parseLine "INIT 5, 0x12C" = some (.init 5 300) ∧ parseLine "INIT 5" = some (.initDefault 5) ∧
      parseLine "WRITE 5, 3" = some (.write 5 3) ∧ parseLine "READ DUTY[5]" = some (.read (.duty 5)) ∧
      parseLine "TICK 252" = some (.ticks 252) ∧ parseLine "WRITE 5" = none := by decide

theorem test_assemble_init_default : assemble Config.P0 (.initDefault 5) = some [cmd 0x1005012C] := by decide

/-! ### Witnesses: states and operands that meet the hypotheses of the obligations -/

/-- Two live pins, one with a pending duty, at the cycle boundary; nothing presented. -/
def boundary : State := setDuty 5 ⟨0, 128⟩ (armedWith [5, 6])

theorem armedWith_inv : BlockInv (armedWith [5, 6]) :=
  { config_valid := by decide, slots_sized := by decide, prefix_live := by decide, live_count := by decide
    untouched := by decide, armed_run := by decide, armed_init := by decide, empty_pin := by decide
    err_legal := by decide, sel_legal := by decide, reload_legal := by decide }

theorem boundary_inv : BlockInv boundary :=
  { armedWith_inv with config_valid := armedWith_inv.config_valid }

theorem boundary_with_inputs_inv (inputs : List Input) : BlockInv { boundary with inputs := inputs } :=
  { boundary_inv with config_valid := boundary_inv.config_valid }

theorem fits_300 : PrescaleChoice State.reset.config (State.reset.config.fClk / ((300 : Freq).toNat * 256) / 2) 1 104 :=
  .fits [] ⟨0, 1⟩ _ rfl (by simp) (by decide)

theorem saturates_100 :
    PrescaleChoice { Config.P0 with prescale := [⟨0, 1⟩] } (cycleCount 16000000 100) 1 255 :=
  .saturates [] ⟨0, 1⟩ rfl (by decide)

theorem witness_RstRestoresResetValues :
    ({ boundary with inputs := [.rst] } : State).inputs = .rst :: [] := rfl

theorem witness_EncodeOfDecodeIsTheSignal :
    decode (.cmdWord 0x400500FF) = .ok (.write 5 255) ∧ decode (.tickIn 1) = .ok .tick := by decide

theorem witness_IllegalWordsChangeOnlyResult :
    decode (.cmdWord 0x60000000) = .error .reservedOp ∧ decode (.cmdWord 0x40050100) = .error .nonzeroArgHigh ∧
      ({ boundary with inputs := [cmd 0x60000000] } : State).inputs = .host (.write 0 0x60000000) :: [] := by decide

theorem witness_StepRunsTheDecodedInstruction :
    ({ boundary with inputs := [cmd 0x20060000] } : State).inputs = .host (.write 0 0x20060000) :: [] ∧
      decode (.cmdWord 0x20060000) = .ok (.enable 6) ∧
      ({ boundary with inputs := [.tickIn 1] } : State).inputs = .tickIn 1 :: [] ∧ decode (.tickIn 1) = .ok .tick ∧
      ({ boundary with inputs := [.tickIn 0] } : State).inputs = .tickIn 0 :: [] := by decide

theorem witness_PlacedInstructionRunsNext :
    decodeTableWord 32 0x1005012C = some (.init 5 300) ∧ decodeTableWord 8 1 = some .tick ∧
      decodeTableWord 1 1 = some .tick := by decide

theorem witness_HostReadChangesNoState :
    ({ boundary with inputs := [.host (.read 261)] } : State).inputs = .host (.read 261) :: [] := rfl

/-- Each clause's range at its ends: words 0 to 5; slots 0 and 3; pins 0 and 255; words 6, 15, 20 and 255. -/
theorem witness_WindowReadsTheState :
    boundary.config.Valid ∧ boundary.slots.length = boundary.config.maxChannels ∧
      ((0 : WordAddr).toNat = 0 ∧ (1 : WordAddr).toNat = 1 ∧ (2 : WordAddr).toNat = 2 ∧ (3 : WordAddr).toNat = 3 ∧
        (4 : WordAddr).toNat = 4 ∧ (5 : WordAddr).toNat = 5) ∧
      ((16 : WordAddr).toNat = 16 + 0 ∧ boundary.slots[0]? = some ⟨true, 5⟩) ∧
      ((19 : WordAddr).toNat = 16 + 3 ∧ boundary.slots[3]? = some ⟨false, 0⟩) ∧
      (256 : WordAddr).toNat = 256 + (0 : Pin).toNat ∧ (511 : WordAddr).toNat = 256 + (255 : Pin).toNat ∧
      (6 ≤ (6 : WordAddr).toNat ∧ (15 : WordAddr).toNat ≤ 15) ∧
      (16 + boundary.config.maxChannels ≤ (20 : WordAddr).toNat ∧ (255 : WordAddr).toNat ≤ 255) := by decide

theorem witness_OnlyCmdIsWritable :
    (1 : WordAddr) ≠ 0 ∧ (511 : WordAddr) ≠ 0 ∧
      ({ boundary with inputs := [.host (.write 511 7)] } : State).inputs = .host (.write 511 7) :: [] := by decide

/-- The clauses: an aligned 4-byte read and write, a misaligned offset, an access of another size. -/
theorem witness_BridgeTakesOnlyAlignedWords :
    ({ boundary with inputs := [.bridge 2044 (.read 4)] } : State).inputs = .bridge 2044 (.read 4) :: [] ∧
      (2044 : ByteOffset).toNat % 4 = 0 ∧ BridgeAccess.write (lanesOfWord 0x20060000) = .write [0, 0, 6, 0x20] ∧
      (2047 : ByteOffset).toNat % 4 ≠ 0 ∧ bridgeSize (.read 3) ≠ 4 ∧ bridgeSize (.write [0, 0, 6, 0x20, 0]) ≠ 4 := by
  decide

theorem witness_PulseAndTransactionAreOrdered :
    ({ boundary with inputs := [.hostWithTick (.read 3)] } : State).inputs = .hostWithTick (.read 3) :: [] ∧
      ({ boundary with inputs := [.tickDuringHost (.read 3)] } : State).inputs = .tickDuringHost (.read 3) :: [] := by
  decide

theorem witness_AdmissibleRunsNeverStop :
    ∀ i ∈ ({ boundary with
      inputs := [cmd 0xFFFFFFFF, .host (.read 6), .tickIn 1, .rst, .hostWithTick (.read 0), .bridge 0 (.read 4)] } :
        State).inputs, admissible i = true := by decide

/-- Both ends of the range of frequencies. -/
theorem witness_CycleCountAndReloadAreExact :
    Config.P0.Valid ∧ FrequencyInRange Config.P0 1 ∧ FrequencyInRange Config.P0 300 := by decide

theorem witness_PrescaleSelectIsTheChoice :
    Config.P0.Valid ∧ ({ Config.P0 with prescale := [⟨0, 1⟩] } : Config).Valid ∧
      (∃ n, PrescaleChoice Config.P0 n 1 104) ∧ ∃ n, PrescaleChoice { Config.P0 with prescale := [⟨0, 1⟩] } n 1 255 :=
  ⟨by decide, by decide, ⟨_, fits_300⟩, ⟨_, saturates_100⟩⟩

theorem witness_InitOutOfRangeChangesOnlyResult :
    (0 : Freq).toNat = 0 ∧ boundary.config.maxFrequency < (301 : Freq).toNat := by decide

theorem witness_FirstInitSetsUpAndRegisters :
    State.reset.init = false ∧ FrequencyInRange State.reset.config 300 ∧
      PrescaleChoice State.reset.config (State.reset.config.fClk / ((300 : Freq).toNat * 256) / 2) 1 104 ∧
      FirstEmpty State.reset.slots [] Slot.empty (List.replicate 3 Slot.empty) :=
  ⟨rfl, by decide, fits_300, rfl, by simp, rfl⟩

theorem witness_LaterInitOnlyRegisters :
    boundary.init = true ∧ FrequencyInRange boundary.config 1 ∧
      FirstEmpty boundary.slots [⟨true, 5⟩, ⟨true, 6⟩] Slot.empty [Slot.empty] := by decide

/-- Both clauses: a full table before and after the first in-range INIT. -/
theorem witness_InitOnFullTableKeepsPartialState :
    FrequencyInRange (armedWith [1, 2, 3, 4]).config 300 ∧
      (∀ x ∈ (armedWith [1, 2, 3, 4]).slots, x.valid = true) ∧ (armedWith [1, 2, 3, 4]).init = true ∧
      (∀ x ∈ ({ State.reset with slots := (armedWith [1, 2, 3, 4]).slots, live := 4 } : State).slots, x.valid = true) ∧
      ({ State.reset with slots := (armedWith [1, 2, 3, 4]).slots, live := 4 } : State).init = false ∧
      PrescaleChoice State.reset.config (State.reset.config.fClk / ((300 : Freq).toNat * 256) / 2) 1 104 :=
  ⟨by decide, by decide, rfl, by decide, rfl, fits_300⟩

theorem witness_EnableTakesTheFirstEmptySlot :
    FirstEmpty (armedWith [5, 6, 7]).slots [⟨true, 5⟩, ⟨true, 6⟩, ⟨true, 7⟩] Slot.empty [] := by decide

theorem witness_EnableOnFullTableChangesOnlyResult :
    ∀ x ∈ (armedWith [1, 2, 3, 4]).slots, x.valid = true := by decide

/-- Both clauses: a table that keeps a live pin, and one that becomes empty. -/
theorem witness_RemovalClosesTheGap :
    FirstHolding 6 boundary.slots [⟨true, 5⟩] ⟨true, 6⟩ [Slot.empty, Slot.empty] ∧ boundary.live - 1 ≠ 0 ∧
      FirstHolding 6 (armedWith [6]).slots [] ⟨true, 6⟩ (List.replicate 3 Slot.empty) ∧ (armedWith [6]).live - 1 = 0 := by
  decide

theorem witness_RemovalOfAnAbsentPin :
    (∀ x ∈ boundary.slots, ¬(x.valid = true ∧ x.pin = 0)) ∧ boundary.live ≠ 0 ∧
      (∀ x ∈ State.reset.slots, ¬(x.valid = true ∧ x.pin = 0)) ∧ State.reset.live = 0 := by decide

theorem witness_GatedTickDoesNothing :
    State.reset.armed = false ∧ ({ boundary with run := false } : State).run = false := by decide

theorem witness_TickAtTheBoundaryCommits :
    boundary.armed = true ∧ boundary.run = true ∧ boundary.cycle = 0 := by decide

theorem witness_TickOffTheBoundaryLowersPins :
    ({ boundary with cycle := 255 } : State).armed = true ∧ ({ boundary with cycle := 255 } : State).run = true ∧
      ({ boundary with cycle := 255 } : State).cycle ≠ 0 := by decide

theorem witness_TickEmitsAtMostOneEventPerSlot : BlockInv boundary := boundary_inv

theorem witness_TickIgnoresSlotOrder :
    ((armedWith [6, 5]).slots.takeWhile Slot.valid).Perm (boundary.slots.takeWhile Slot.valid) := by decide

theorem witness_StepKeepsTheInvariant :
    BlockInv { boundary with inputs := [cmd 0x30050000] } ∧
      ∃ t, step { boundary with inputs := [cmd 0x30050000] } = .next t :=
  ⟨boundary_with_inputs_inv _, _, rfl⟩

theorem witness_StepKeepsTheShadowBits :
    ShadowAgrees { boundary with trace := [.configureRate 1 104, .resetCounter, .armInterrupt], inputs := [.tickIn 1] } ∧
      ∃ t, step { boundary with
        trace := [.configureRate 1 104, .resetCounter, .armInterrupt], inputs := [.tickIn 1] } = .next t :=
  ⟨⟨rfl, rfl⟩, _, rfl⟩

theorem witness_TeardownIsPermanent :
    TornDown { State.reset with init := true, cycle := 1, inputs := [.tickIn 1, cmd 0x1006012C, .tickIn 1] } ∧
      ∀ i ∈ ({ State.reset with init := true, cycle := 1, inputs := [.tickIn 1, cmd 0x1006012C, .tickIn 1] } :
        State).inputs, admissible i = true ∧ notReset i = true := by decide

theorem witness_ParametersNeverChange : ∃ t, step { boundary with inputs := [cmd 0x20060000] } = .next t := ⟨_, rfl⟩

theorem witness_TraceOnlyGrows :
    (∃ t, step { boundary with inputs := [.tickIn 1] } = .next t) ∧
      ∃ t, step { boundary with inputs := [.rst] } = .next t := ⟨⟨_, rfl⟩, ⟨_, rfl⟩⟩

/-- Both clauses: WRITE changes a pending duty, a TICK at the boundary a committed one. -/
theorem witness_DutyPairHasItsWriters :
    (∃ t, exec (.write 5 7) boundary = .next t ∧ (dutyAt t 5).p ≠ (dutyAt boundary 5).p) ∧
      ∃ t, exec .tick boundary = .next t ∧ (dutyAt t 5).c ≠ (dutyAt boundary 5).c :=
  ⟨⟨_, rfl, by decide⟩, ⟨_, rfl, by decide⟩⟩

theorem witness_CycleHasItsWriters :
    (∃ t, exec .tick boundary = .next t ∧ t.cycle ≠ boundary.cycle) ∧
      ∃ t, exec (.init 5 300) { State.reset with cycle := 9 } = .next t ∧ t.cycle ≠ 9 :=
  ⟨⟨_, rfl, by decide⟩, ⟨_, rfl, by decide⟩⟩

theorem witness_CommandsAndTicksStayApart :
    (∃ t, exec (.init 7 300) boundary = .next t) ∧ ∃ t, exec .tick boundary = .next t := ⟨⟨_, rfl⟩, ⟨_, rfl⟩⟩

theorem witness_TimerIsSetUpOnce : boundary.init = true ∧ ∃ t, exec (.init 7 1) boundary = .next t := ⟨rfl, _, rfl⟩

theorem witness_ResultReportsTheLastCommand :
    (∃ t, exec .nop boundary = .next t) ∧
      ∃ t, exec (.disable 6) (armedWith [6]) = .next t ∧ t.result.empty = true :=
  ⟨⟨_, rfl⟩, ⟨_, rfl, by decide⟩⟩

theorem witness_ErrorCodesAreComplete :
    BlockInv boundary ∧ decode (.cmdWord 0x1009012D) ≠ .ok .nop ∧ ∃ t, regWrite 0 0x1009012D boundary = .next t :=
  ⟨boundary_inv, by decide, _, rfl⟩

/-- An empty table and one ENABLE more than it takes. -/
theorem witness_EnablesSucceedUpToCapacity :
    BlockInv { armedWith [] with inputs := [1, 2, 3, 4, 5].map (fun p : Pin => cmd (BitVec.ofNat 32 (0x20000000 + p.toNat * 65536))) } ∧
      (armedWith []).live = 0 :=
  ⟨{ config_valid := by decide, slots_sized := by decide, prefix_live := by decide, live_count := by decide
     untouched := by decide, armed_run := by decide, armed_init := by decide, empty_pin := by decide
     err_legal := by decide, sel_legal := by decide, reload_legal := by decide }, rfl⟩

theorem witness_CompactionLosesNothing : BlockInv boundary ∧ (5 : Pin) ∈ livePins boundary := ⟨boundary_inv, by decide⟩

theorem witness_RemovedPinsKeepTheirLevel :
    (∃ t, exec (.disable 5) boundary = .next t) ∧ ∃ t, exec (.destroy 9) boundary = .next t := ⟨⟨_, rfl⟩, ⟨_, rfl⟩⟩

/-- The middle of the range of duties and both of its ends, 1 and 254. -/
theorem witness_MiddleDutyWaveform :
    BlockInv { boundary with inputs := List.replicate 256 (.tickIn 1) ++ [] } ∧ boundary.armed = true ∧
      boundary.cycle = 0 ∧ (5 : Pin) ∈ livePins boundary ∧ (dutyAt boundary 5).p = 128 ∧
      (dutyAt (setDuty 5 ⟨0, 1⟩ boundary) 5).p = 1 ∧ (dutyAt (setDuty 5 ⟨0, 254⟩ boundary) 5).p = 254 ∧
      (∀ d ∈ [1, 128, 254], 0 < (d : Duty).toNat ∧ (d : Duty).toNat < 255) :=
  ⟨boundary_with_inputs_inv _, by decide⟩

theorem witness_EndDutyWaveform :
    BlockInv { boundary with inputs := List.replicate 256 (.tickIn 1) ++ [] } ∧ boundary.armed = true ∧
      boundary.cycle = 0 ∧ (6 : Pin) ∈ livePins boundary ∧ (dutyAt boundary 6).p = 0 ∧
      (dutyAt (setDuty 6 ⟨0, 255⟩ boundary) 6).p = 255 :=
  ⟨boundary_with_inputs_inv _, by decide⟩

/-- Both clauses: a WRITE mid-cycle with ticks to the end of the cycle, and a WRITE before the boundary tick. -/
theorem witness_MidCycleWriteWaitsForTheBoundary :
    (∃ w, exec (.write 5 9) { boundary with cycle := 254, inputs := List.replicate 2 (.tickIn 1) ++ [] } = .next w) ∧
      ({ boundary with cycle := 254 } : State).cycle ≠ 0 ∧ ({ boundary with cycle := 254 } : State).cycle.toNat + 2 ≤ 256 ∧
      (∃ w, exec (.write 5 9) boundary = .next w) ∧ boundary.cycle = 0 ∧ boundary.armed = true ∧ boundary.run = true ∧
      5 ∈ (boundary.slots.takeWhile Slot.valid).map Slot.pin :=
  ⟨⟨_, rfl⟩, by decide, by decide, ⟨_, rfl⟩, by decide⟩

/-- Both ways to register: ENABLE, and a later INIT. -/
theorem witness_NewPinWaitsForTheBoundary :
    (∃ e w, exec (.enable 7) { boundary with cycle := 254, inputs := List.replicate 2 (.tickIn 1) ++ [] } = .next e ∧
      e.result.ok = true ∧ exec (.write 7 200) e = .next w) ∧
      (∃ e w, exec (.init 7 1) { boundary with cycle := 1, inputs := List.replicate 2 (.tickIn 1) ++ [] } = .next e ∧
        e.result.ok = true ∧ exec (.write 7 200) e = .next w) ∧ boundary.init = true ∧
      ({ boundary with cycle := 254 } : State).cycle ≠ 0 ∧ ({ boundary with cycle := 254 } : State).cycle.toNat + 2 ≤ 256 :=
  ⟨⟨_, _, rfl, by decide, rfl⟩, ⟨_, _, rfl, by decide, rfl⟩, rfl, by decide⟩

/-- Pin 5 at duty d inside a cycle, after its boundary event and, past the falling edge, that one. -/
def onWave (d : Duty) (cycle : BitVec 8) (trace : List Event) (inputs : List Input) : State :=
  { setDuty 5 ⟨d, 77⟩ (armedWith [5, 6]) with cycle := cycle, trace := trace, inputs := inputs }

theorem onWave_inv (d : Duty) (cycle : BitVec 8) (trace : List Event) (inputs : List Input) :
    BlockInv (onWave d cycle trace inputs) :=
  { armedWith_inv with untouched := fun h => absurd (show true = false from h) (by decide) }

/-- The steps the statement keeps: a TICK at the falling edge and at the last but one tick, a WRITE to the pin, a command
on another pin; at the duties 1, 254 and 255. -/
theorem witness_StepKeepsTheWaveform :
    (OnWaveform 5 1 0 (onWave 1 1 [.setPinLevel 5 true] [.tickIn 1]) ∧
      OnWaveform 5 254 0 (onWave 254 254 [.setPinLevel 5 true] [cmd 0x40050009]) ∧
      OnWaveform 5 255 0 (onWave 255 254 [.setPinLevel 5 true] [cmd 0x30060000])) ∧
      (∃ t, step (onWave 1 1 [.setPinLevel 5 true] [.tickIn 1]) = .next t) ∧
      nextInstr (onWave 1 1 [.setPinLevel 5 true] [.tickIn 1]) = some .tick ∧ (1 : BitVec 8) ≠ 255 ∧
      nextInstr (onWave 254 254 [.setPinLevel 5 true] [cmd 0x40050009]) = some (.write 5 9) ∧
      nextInstr (onWave 255 254 [.setPinLevel 5 true] [cmd 0x30060000]) = some (.disable 6) ∧
      ¬reslots 5 (onWave 255 254 [.setPinLevel 5 true] [cmd 0x30060000]) (.disable 6) :=
  ⟨⟨⟨by decide, by decide, by decide, by decide, by decide⟩, ⟨by decide, by decide, by decide, by decide, by decide⟩,
    ⟨by decide, by decide, by decide, by decide, by decide⟩⟩, ⟨_, rfl⟩, by decide, by decide, by decide, by decide,
    by simp [reslots]⟩

/-- Both clauses: the boundary, and `CYCLE` = 255 past a falling edge and at duty 255. -/
theorem witness_WaveformStartsAndEndsWithTheCycle :
    BlockInv boundary ∧ boundary.armed = true ∧ (5 : Pin) ∈ livePins boundary ∧ boundary.cycle = 0 ∧
      (dutyAt boundary 5).p = 128 ∧
      (OnWaveform 5 254 0 (onWave 254 255 [.setPinLevel 5 true, .setPinLevel 5 false] []) ∧
        OnWaveform 5 255 0 (onWave 255 255 [.setPinLevel 5 true] [])) ∧
      (onWave 255 255 [.setPinLevel 5 true] []).armed = true ∧ (onWave 255 255 [.setPinLevel 5 true] []).cycle = 255 :=
  ⟨boundary_inv, rfl, by decide, rfl, by decide,
    ⟨⟨by decide, by decide, by decide, by decide, by decide⟩, ⟨by decide, by decide, by decide, by decide, by decide⟩⟩,
    rfl, rfl⟩

theorem witness_AssemblerFollowsTheSyntax :
    Config.P0.Valid ∧ 255 ≤ 255 ∧ 65535 ≤ 65535 ∧ 255 < 256 ∧ 65535 < 65536 ∧ 3 < Config.P0.maxChannels := by decide

end Sys2Proof.Machine.Tests
end

-- The platform bridge (spec/20_memory.md rules R44, R45): byte lanes, and which access is a port transaction.
namespace Sys2Proof.Machine

theorem lanesOfWord_getElem?_toNat (w : Word) {j : Nat} (hj : j < 4) :
    ((lanesOfWord w)[j]?).map BitVec.toNat = some (w.toNat / 256 ^ j % 256) := by
  obtain ⟨h0, h1, h2, h3⟩ := lane_toNat w
  match j, hj with
  | 0, _ => simp [lanesOfWord, h0]
  | 1, _ => simp [lanesOfWord, h1]
  | 2, _ => simp [lanesOfWord, h2]
  | 3, _ => simp [lanesOfWord, h3]

theorem wordOfLanes_lanesOfWord (w : Word) :
    wordOfLanes (w.extractLsb' 0 8) (w.extractLsb' 8 8) (w.extractLsb' 16 8) (w.extractLsb' 24 8) = w := by
  obtain ⟨h0, h1, h2, h3⟩ := lane_toNat w
  apply BitVec.eq_of_toNat_eq
  rw [wordOfLanes_toNat, h0, h1, h2, h3]
  have := w.isLt
  omega

theorem exists_lanesOfWord_of_length {bytes : List Byte} (h : bytes.length = 4) : ∃ w, bytes = lanesOfWord w := by
  obtain ⟨b0, b1, b2, b3, rfl⟩ := List.length_eq_four.1 h
  exact ⟨wordOfLanes b0 b1 b2 b3, (lanesOfWord_wordOfLanes b0 b1 b2 b3).symm⟩

theorem offset_aligned_iff (offset : ByteOffset) : offset.extractLsb' 0 2 = 0 ↔ offset.toNat % 4 = 0 := by
  simp [← BitVec.toNat_inj, BitVec.extractLsb'_toNat]

theorem offset_wordAddr (offset : ByteOffset) : offset.extractLsb' 2 9 = BitVec.ofNat 9 (offset.toNat / 4) := by
  simp [← BitVec.toNat_inj, BitVec.extractLsb'_toNat, Nat.shiftRight_eq_div_pow]

theorem bridgeTxn_read {offset : ByteOffset} (h : offset.toNat % 4 = 0) :
    bridgeTxn offset (.read 4) = some (.read (BitVec.ofNat 9 (offset.toNat / 4))) := by
  simp [bridgeTxn, (offset_aligned_iff offset).2 h, offset_wordAddr]

theorem bridgeTxn_write {offset : ByteOffset} (h : offset.toNat % 4 = 0) (w : Word) :
    bridgeTxn offset (.write (lanesOfWord w)) = some (.write (BitVec.ofNat 9 (offset.toNat / 4)) w) := by
  simp [bridgeTxn, lanesOfWord, (offset_aligned_iff offset).2 h, offset_wordAddr, wordOfLanes_lanesOfWord]

theorem bridgeTxn_eq_none_of_misaligned {offset : ByteOffset} (h : offset.toNat % 4 ≠ 0) (x : BridgeAccess) :
    bridgeTxn offset x = none :=
  if_pos (mt (offset_aligned_iff offset).1 h)

theorem bridgeTxn_eq_none_of_size {x : BridgeAccess} (h : bridgeSize x ≠ 4) (offset : ByteOffset) :
    bridgeTxn offset x = none := by
  rw [bridgeTxn]
  split
  · rfl
  · dsimp only
    split
    · exact if_neg h
    · exact absurd rfl h
    · rfl

theorem step_bridge_of_txn {s : State} {offset : ByteOffset} {x : BridgeAccess} {rest : List Input} {y : HostTxn}
    (hs : s.inputs = .bridge offset x :: rest) (hy : bridgeTxn offset x = some y) :
    step s = step { s with inputs := .host y :: rest } := by
  simp [step, hs, serveInput, hy]

theorem step_bridge_of_none {s : State} {offset : ByteOffset} {x : BridgeAccess} {rest : List Input}
    (hs : s.inputs = .bridge offset x :: rest) (hx : bridgeTxn offset x = none) :
    step s = .refused .misalignedAccess := by
  simp [step, hs, serveInput, hx]

/-- Settles O17: the access is decided by `bridgeTxn`, which is a transaction at an aligned offset and 4 bytes only. -/
theorem bridgeTakesOnlyAlignedWords : Obligations.BridgeTakesOnlyAlignedWords := by
  unfold Obligations.BridgeTakesOnlyAlignedWords
  refine ⟨fun w j hj => lanesOfWord_getElem?_toNat w hj, fun s offset x rest hs => ⟨?read, ?write, ?lanes, ?refuse⟩⟩
  case read =>
    rintro ha rfl
    exact step_bridge_of_txn hs (bridgeTxn_read ha)
  case write =>
    rintro w ha rfl
    exact step_bridge_of_txn hs (bridgeTxn_write ha w)
  case lanes => exact fun bytes _ hlen => exists_lanesOfWord_of_length hlen
  case refuse =>
    rintro (ha | hsize)
    · exact step_bridge_of_none hs (bridgeTxn_eq_none_of_misaligned ha x)
    · exact step_bridge_of_none hs (bridgeTxn_eq_none_of_size hsize offset)

end Sys2Proof.Machine

-- The command words (spec/30_encoding.md rules R53 to R58): which word is which command, and how many there are.
namespace Sys2Proof

/-- A packed word as the sum R64 writes for it. -/
theorem packFields_eq_ofNat (hi : BitVec 4) (mid : BitVec 8) (lo : BitVec 16) :
    packFields hi mid lo = BitVec.ofNat 32 (hi.toNat * 268435456 + mid.toNat * 65536 + lo.toNat) :=
  BitVec.eq_of_toNat_eq (by rw [BitVec.toNat_ofNat, ← packFields_toNat, Nat.mod_eq_of_lt (packFields hi mid lo).isLt])

theorem packFields_eq_iff {hi : BitVec 4} {mid : BitVec 8} {lo : BitVec 16} {w : Word} :
    packFields hi mid lo = w ↔ opField w = hi ∧ rsvField w = 0 ∧ pinField w = mid ∧ argField w = lo := by
  constructor
  · rintro rfl
    simp
  · rintro ⟨rfl, hrsv, rfl, rfl⟩
    exact (eq_packFields hrsv).symm

theorem argField_eq_setWidth_iff {w : Word} {d : Duty} :
    argField w = d.setWidth 16 ↔ argHighField w = 0 ∧ dutyField w = d := by
  have hd := d.isLt
  rw [← BitVec.toNat_inj, ← BitVec.toNat_inj, ← BitVec.toNat_inj, argField_toNat, argHighField_toNat, dutyField_toNat]
  simp
  omega

theorem decode_encode (i : Instr) : decode (encode i) = .ok i := by
  cases i <;> simp [encode, decode, decodeCmd, decodePinOnly]

theorem encode_of_decodePinOnly {w : Word} {op : BitVec 4} {mk : Pin → Instr} {i : Instr}
    (hmk : ∀ p, encode (mk p) = .cmdWord (packFields op p 0)) (hop : opField w = op) (hrsv : rsvField w = 0)
    (h : decodePinOnly w mk = .ok i) : encode i = .cmdWord w := by
  rw [decodePinOnly] at h
  split at h
  · next harg =>
    cases h
    rw [hmk, packFields_eq_iff.2 ⟨hop, hrsv, rfl, harg⟩]
  · cases h

theorem encode_of_decodeCmd {w : Word} {i : Instr} (h : decodeCmd w = .ok i) : encode i = .cmdWord w := by
  by_cases hrsv : rsvField w = 0
  · rw [decodeCmd, if_neg (not_not.2 hrsv)] at h
    split_ifs at h with h0 hpin harg h1 h2 h3 h4 hhigh h5
    · cases h
      rw [encode, packFields_eq_iff.2 ⟨h0, hrsv, not_not.1 hpin, not_not.1 harg⟩]
    · cases h
      rw [encode, packFields_eq_iff.2 ⟨h1, hrsv, rfl, rfl⟩]
    · exact encode_of_decodePinOnly (fun _ => rfl) h2 hrsv h
    · exact encode_of_decodePinOnly (fun _ => rfl) h3 hrsv h
    · cases h
      rw [encode, packFields_eq_iff.2 ⟨h4, hrsv, rfl, argField_eq_setWidth_iff.2 ⟨hhigh, rfl⟩⟩]
    · exact encode_of_decodePinOnly (fun _ => rfl) h5 hrsv h
  · rw [decodeCmd, if_pos hrsv] at h
    cases h

theorem decode_cmdWord_eq_ok_iff {w : Word} {i : Instr} : decode (.cmdWord w) = .ok i ↔ encode i = .cmdWord w :=
  ⟨encode_of_decodeCmd, fun h => h ▸ decode_encode i⟩

/-! ### Which words are which command -/

theorem decode_eq_nop_iff {w : Word} :
    decode (.cmdWord w) = .ok .nop ↔ opField w = 0 ∧ rsvField w = 0 ∧ pinField w = 0 ∧ argField w = 0 := by
  simp only [decode_cmdWord_eq_ok_iff, encode, Signal.cmdWord.injEq, packFields_eq_iff]

theorem decode_eq_init_iff {w : Word} {p : Pin} {f : Freq} :
    decode (.cmdWord w) = .ok (.init p f) ↔ opField w = 1 ∧ rsvField w = 0 ∧ pinField w = p ∧ argField w = f := by
  simp only [decode_cmdWord_eq_ok_iff, encode, Signal.cmdWord.injEq, packFields_eq_iff]

theorem decode_eq_pinOnly_iff {w : Word} {p : Pin} {op : BitVec 4} {mk : Pin → Instr}
    (hmk : ∀ p, encode (mk p) = .cmdWord (packFields op p 0)) :
    decode (.cmdWord w) = .ok (mk p) ↔ opField w = op ∧ rsvField w = 0 ∧ pinField w = p ∧ argField w = 0 := by
  simp only [decode_cmdWord_eq_ok_iff, hmk, Signal.cmdWord.injEq, packFields_eq_iff]

theorem decode_eq_enable_iff {w : Word} {p : Pin} :
    decode (.cmdWord w) = .ok (.enable p) ↔ opField w = 2 ∧ rsvField w = 0 ∧ pinField w = p ∧ argField w = 0 :=
  decode_eq_pinOnly_iff fun _ => rfl

theorem decode_eq_disable_iff {w : Word} {p : Pin} :
    decode (.cmdWord w) = .ok (.disable p) ↔ opField w = 3 ∧ rsvField w = 0 ∧ pinField w = p ∧ argField w = 0 :=
  decode_eq_pinOnly_iff fun _ => rfl

theorem decode_eq_write_iff {w : Word} {p : Pin} {d : Duty} :
    decode (.cmdWord w) = .ok (.write p d) ↔
      opField w = 4 ∧ rsvField w = 0 ∧ pinField w = p ∧ argHighField w = 0 ∧ dutyField w = d := by
  simp only [decode_cmdWord_eq_ok_iff, encode, Signal.cmdWord.injEq, packFields_eq_iff, argField_eq_setWidth_iff]

theorem decode_eq_destroy_iff {w : Word} {p : Pin} :
    decode (.cmdWord w) = .ok (.destroy p) ↔ opField w = 5 ∧ rsvField w = 0 ∧ pinField w = p ∧ argField w = 0 :=
  decode_eq_pinOnly_iff fun _ => rfl

/-- The six commands a word can be: its operands are its own fields (R54, R55). -/
theorem exists_decode_ok_iff (w : Word) :
    (∃ i, decode (.cmdWord w) = .ok i) ↔
      decode (.cmdWord w) = .ok .nop ∨ decode (.cmdWord w) = .ok (.init (pinField w) (argField w)) ∨
      decode (.cmdWord w) = .ok (.enable (pinField w)) ∨ decode (.cmdWord w) = .ok (.disable (pinField w)) ∨
      decode (.cmdWord w) = .ok (.write (pinField w) (dutyField w)) ∨
      decode (.cmdWord w) = .ok (.destroy (pinField w)) := by
  constructor
  · rintro ⟨i, h⟩
    cases i with
    | nop => exact .inl h
    | init p f => obtain ⟨-, -, rfl, rfl⟩ := decode_eq_init_iff.1 h; exact .inr (.inl h)
    | enable p => obtain ⟨-, -, rfl, -⟩ := decode_eq_enable_iff.1 h; exact .inr (.inr (.inl h))
    | disable p => obtain ⟨-, -, rfl, -⟩ := decode_eq_disable_iff.1 h; exact .inr (.inr (.inr (.inl h)))
    | write p d => obtain ⟨-, -, rfl, -, rfl⟩ := decode_eq_write_iff.1 h; exact .inr (.inr (.inr (.inr (.inl h))))
    | destroy p => obtain ⟨-, -, rfl, -⟩ := decode_eq_destroy_iff.1 h; exact .inr (.inr (.inr (.inr (.inr h))))
    | tick => cases decode_cmdWord_eq_ok_iff.1 h
  · rintro (h | h | h | h | h | h) <;> exact ⟨_, h⟩

theorem exists_decode_error_iff (x : Signal) : (∃ e, decode x = .error e) ↔ ¬∃ i, decode x = .ok i := by
  cases decode x <;> simp

/-! ### The rows of the opcode map -/

/-- The words of a row, field by field: every mask keeps all of `OP` and `RSV` (R55). -/
theorem and_mask_eq_iff {w mask row : Word} {hi : BitVec 4} {mid : BitVec 8} {lo : BitVec 16}
    (hmask : opField mask = BitVec.allOnes 4 ∧ rsvField mask = BitVec.allOnes 4 ∧ pinField mask = mid ∧
      argField mask = lo) (hrow : row = packFields hi 0 0) :
    w &&& mask = row ↔ opField w = hi ∧ rsvField w = 0 ∧ pinField w &&& mid = 0 ∧ argField w &&& lo = 0 := by
  obtain ⟨hop, hrsv, rfl, rfl⟩ := hmask
  rw [hrow, eq_comm, packFields_eq_iff, opField_and, rsvField_and, pinField_and, argField_and, hop, hrsv,
    BitVec.and_allOnes, BitVec.and_allOnes]

theorem decode_eq_nop_iff_and_mask (w : Word) : decode (.cmdWord w) = .ok .nop ↔ w &&& 0xFFFFFFFF = 0x00000000 := by
  rw [decode_eq_nop_iff, and_mask_eq_iff (hi := 0) (mid := BitVec.allOnes 8) (lo := BitVec.allOnes 16) (by decide)
    (by decide), BitVec.and_allOnes, BitVec.and_allOnes]

theorem decode_eq_init_iff_and_mask (w : Word) :
    decode (.cmdWord w) = .ok (.init (pinField w) (argField w)) ↔ w &&& 0xFF000000 = 0x10000000 := by
  rw [decode_eq_init_iff, and_mask_eq_iff (hi := 1) (mid := 0) (lo := 0) (by decide) (by decide)]
  simp

theorem decode_eq_pinOnly_iff_and_mask {row : Word} {op : BitVec 4} {mk : Pin → Instr}
    (hmk : ∀ p, encode (mk p) = .cmdWord (packFields op p 0)) (hrow : row = packFields op 0 0) (w : Word) :
    decode (.cmdWord w) = .ok (mk (pinField w)) ↔ w &&& 0xFF00FFFF = row := by
  rw [decode_eq_pinOnly_iff hmk, and_mask_eq_iff (mid := 0) (lo := BitVec.allOnes 16) (by decide) hrow,
    BitVec.and_allOnes]
  simp

theorem decode_eq_write_iff_and_mask (w : Word) :
    decode (.cmdWord w) = .ok (.write (pinField w) (dutyField w)) ↔ w &&& 0xFF00FF00 = 0x40000000 := by
  rw [decode_eq_write_iff, and_mask_eq_iff (hi := 4) (mid := 0) (lo := 0xFF00) (by decide) (by decide)]
  simp [argField_and_high]

/-- Settles O6: a row's mask keeps `OP`, `RSV` and the fields that must be zero; an illegal word is none of the
six commands with its own fields as operands. -/
theorem decoderFollowsMatchAndMask : Obligations.DecoderFollowsMatchAndMask := by
  unfold Obligations.DecoderFollowsMatchAndMask
  intro w
  have hnop := decode_eq_nop_iff_and_mask w
  have hinit := decode_eq_init_iff_and_mask w
  have henable := decode_eq_pinOnly_iff_and_mask (row := 0x20000000) (mk := .enable) (fun _ => rfl) (by decide) w
  have hdisable := decode_eq_pinOnly_iff_and_mask (row := 0x30000000) (mk := .disable) (fun _ => rfl) (by decide) w
  have hwrite := decode_eq_write_iff_and_mask w
  have hdestroy := decode_eq_pinOnly_iff_and_mask (row := 0x50000000) (mk := .destroy) (fun _ => rfl) (by decide) w
  refine ⟨hnop, hinit, henable, hdisable, hwrite, hdestroy, ?_⟩
  rw [exists_decode_error_iff, exists_decode_ok_iff, hnop, hinit, henable, hdisable, hwrite, hdestroy]
  simp only [not_or, ne_eq]

/-! ### The illegal words -/

/-- R57, on the fields. -/
theorem exists_decode_error_iff_fields (w : Word) :
    (∃ e, decode (.cmdWord w) = .error e) ↔
      (6 ≤ (opField w).toNat ∨ rsvField w ≠ 0 ∨ (opField w ∈ [0, 2, 3, 5] ∧ argField w ≠ 0) ∨
        (opField w = 0 ∧ pinField w ≠ 0) ∨ (opField w = 4 ∧ argHighField w ≠ 0)) := by
  rw [exists_decode_error_iff, exists_decode_ok_iff, decode_eq_nop_iff, decode_eq_init_iff, decode_eq_enable_iff,
    decode_eq_disable_iff, decode_eq_write_iff, decode_eq_destroy_iff]
  generalize opField w = op
  have hop : op = 0 ∨ op = 1 ∨ op = 2 ∨ op = 3 ∨ op = 4 ∨ op = 5 ∨ op ∉ [0, 1, 2, 3, 4, 5] ∧ 6 ≤ op.toNat := by
    revert op; decide
  -- With `OP` known at most one row is left, and both sides speak of the same fields.
  rcases hop with rfl | rfl | rfl | rfl | rfl | rfl | ⟨hop, h6⟩ <;> simp_all <;> tauto

theorem decodePinOnly_ne_noTick (w : Word) (mk : Pin → Instr) : decodePinOnly w mk ≠ .error .noTick := by
  rw [decodePinOnly]
  split <;> simp

theorem decode_cmdWord_ne_noTick (w : Word) : decode (.cmdWord w) ≠ .error .noTick := by
  rw [decode, decodeCmd]
  split_ifs <;> simp [decodePinOnly_ne_noTick]

namespace Machine

theorem runSignal_of_illegal {w : Word} {e : Illegal} (h : decode (.cmdWord w) = .error e) (s : State) :
    runSignal (.cmdWord w) s = .next { s with result := ⟨false, false, 3⟩ } := by
  rcases runSignal_cases (.cmdWord w) s with ⟨i, hi, -⟩ | ⟨_, -, -, hs⟩ | ⟨hn, -⟩
  · rw [h] at hi; cases hi
  · exact hs
  · exact absurd hn (decode_cmdWord_ne_noTick w)

theorem step_cmdWord {s : State} {w : Word} {rest : List Input} (h : s.inputs = .host (.write 0 w) :: rest) :
    step s = runSignal (.cmdWord w) { s with inputs := rest } := by
  rw [step, h]
  rfl

theorem regRead_result (s : State) : regRead 1 s = BitVec.ofNat 32 (resultNat s) := rfl

/-- Settles O7: the words the decoder has no command for are those of R57, and the step of one on `CMD` only raises
`IllegalCommand`. -/
theorem illegalWordsChangeOnlyResult : Obligations.IllegalWordsChangeOnlyResult := by
  unfold Obligations.IllegalWordsChangeOnlyResult
  refine fun w => ⟨exists_decode_error_iff_fields w, fun e s rest he hs => ⟨?step, ?read⟩⟩
  case step => rw [step_cmdWord hs, runSignal_of_illegal he]
  case read => rw [regRead_result]; simp [resultNat, bit]

end Machine

/-! ### How many words are legal -/

/-- The operands of the six commands, in the order of the opcode map (R54, R55). -/
abbrev CommandOperands := Unit ⊕ (Pin × Freq) ⊕ Pin ⊕ Pin ⊕ (Pin × Duty) ⊕ Pin

/-- The command with the given operands. -/
def commandOf : CommandOperands → Instr
  | .inl () => .nop
  | .inr (.inl (p, f)) => .init p f
  | .inr (.inr (.inl p)) => .enable p
  | .inr (.inr (.inr (.inl p))) => .disable p
  | .inr (.inr (.inr (.inr (.inl (p, d))))) => .write p d
  | .inr (.inr (.inr (.inr (.inr p)))) => .destroy p

/-- The operands of a command; TICK, which is none, gets those of NOP. -/
def operandsOf : Instr → CommandOperands
  | .nop => .inl ()
  | .init p f => .inr (.inl (p, f))
  | .enable p => .inr (.inr (.inl p))
  | .disable p => .inr (.inr (.inr (.inl p)))
  | .write p d => .inr (.inr (.inr (.inr (.inl (p, d)))))
  | .destroy p => .inr (.inr (.inr (.inr (.inr p))))
  | .tick => .inl ()

theorem operandsOf_commandOf (x : CommandOperands) : operandsOf (commandOf x) = x := by
  rcases x with _ | _ | _ | _ | _ | _ <;> rfl

theorem commandOf_ne_tick (x : CommandOperands) : commandOf x ≠ .tick := by
  rcases x with _ | _ | _ | _ | _ | _ <;> simp [commandOf]

theorem commandOf_operandsOf {i : Instr} (h : i ≠ .tick) : commandOf (operandsOf i) = i := by
  cases i with
  | tick => exact absurd rfl h
  | _ => rfl

/-- The commands are their operands. -/
def commandEquiv : { i : Instr // i ≠ .tick } ≃ CommandOperands where
  toFun i := operandsOf i
  invFun x := ⟨commandOf x, commandOf_ne_tick x⟩
  left_inv i := Subtype.ext (commandOf_operandsOf i.2)
  right_inv x := operandsOf_commandOf x

theorem card_bitVec (n : Nat) : Nat.card (BitVec n) = 2 ^ n := by
  rw [Nat.card_congr BitVec.equivFin.toEquiv, Nat.card_fin]

theorem card_commandOperands : Nat.card CommandOperands = 16843521 := by
  simp only [Nat.card_sum, Nat.card_prod, card_bitVec, Nat.card_unique]
  norm_num

/-- The word that carries a command; TICK, which no word carries, gets 0. -/
def commandWord (i : Instr) : Word :=
  match encode i with
  | .cmdWord w => w
  | .tickIn _ => 0

theorem encode_eq_commandWord {i : Instr} (h : i ≠ .tick) : encode i = .cmdWord (commandWord i) := by
  cases i with
  | tick => exact absurd rfl h
  | _ => rfl

theorem decode_commandWord {i : Instr} (h : i ≠ .tick) : decode (.cmdWord (commandWord i)) = .ok i :=
  decode_cmdWord_eq_ok_iff.2 (encode_eq_commandWord h)

theorem commandWord_of_decode {w : Word} {i : Instr} (h : decode (.cmdWord w) = .ok i) :
    i ≠ .tick ∧ commandWord i = w := by
  have henc := decode_cmdWord_eq_ok_iff.1 h
  have htick : i ≠ .tick := by rintro rfl; cases henc
  rw [encode_eq_commandWord htick] at henc
  exact ⟨htick, Signal.cmdWord.inj henc⟩

/-- The legal words are the commands, each by its one encoding (R56, R58). -/
theorem bijective_commandWord :
    Function.Bijective fun i : { i : Instr // i ≠ .tick } =>
      (⟨commandWord i, i, decode_commandWord i.2⟩ : { w : Word // ∃ i, decode (.cmdWord w) = .ok i }) := by
  constructor
  · intro i j h
    have hw : commandWord i = commandWord j := congrArg Subtype.val h
    have hdec := decode_commandWord i.2
    rw [hw, decode_commandWord j.2] at hdec
    exact Subtype.ext (Except.ok.inj hdec).symm
  · rintro ⟨w, i, h⟩
    obtain ⟨htick, hw⟩ := commandWord_of_decode h
    exact ⟨⟨i, htick⟩, Subtype.ext hw⟩

/-- Settles O8: the legal words are counted by the operands of their commands. -/
theorem legalWordsAreCounted : Obligations.LegalWordsAreCounted := by
  unfold Obligations.LegalWordsAreCounted
  constructor
  · rw [← Nat.card_eq_of_bijective _ bijective_commandWord, Nat.card_congr commandEquiv, card_commandOperands]
  · intro p f
    exact decode_cmdWord_eq_ok_iff.2 (congrArg Signal.cmdWord (packFields_eq_ofNat 1 p f))

/-! ### The assembler (R64, R65) -/

/-- A word of the row whose match is `row`, for a pin as written. -/
theorem packFields_ofNat_pin {op : BitVec 4} {row p : Nat} (hrow : op.toNat * 268435456 = row) (hp : p ≤ 255)
    (lo : BitVec 16) : packFields op (BitVec.ofNat 8 p) lo = BitVec.ofNat 32 (row + p * 65536 + lo.toNat) := by
  rw [packFields_eq_ofNat, hrow, BitVec.toNat_ofNat, Nat.mod_eq_of_lt (by omega)]

namespace Machine

theorem assemble_of_wellFormed {c : Config} {l : AsmLine} (h : l.wellFormed c = true) :
    assemble c l = some (asmItems c l) :=
  if_pos h

theorem assemble_eq_none_iff {c : Config} {l : AsmLine} : assemble c l = none ↔ l.wellFormed c = false := by
  simp [assemble]

/-- An accepted line whose one item is a command with a pin. -/
theorem assemble_packed {c : Config} {l : AsmLine} {op : BitVec 4} {row p : Nat} {lo : BitVec 16}
    (hwf : l.wellFormed c = true)
    (hitems : asmItems c l = [.host (.write 0 (packFields op (BitVec.ofNat 8 p) lo))])
    (hrow : op.toNat * 268435456 = row) (hp : p ≤ 255) :
    assemble c l = some [.host (.write 0 (BitVec.ofNat 32 (row + p * 65536 + lo.toNat)))] := by
  rw [assemble_of_wellFormed hwf, hitems, packFields_ofNat_pin hrow hp]

theorem assemble_init {c : Config} {p f : Nat} (hp : p ≤ 255) (hf : f ≤ 65535) :
    assemble c (.init p f) = some [.host (.write 0 (BitVec.ofNat 32 (0x10000000 + p * 65536 + f)))] := by
  rw [assemble_packed (row := 0x10000000) (by simp [AsmLine.wellFormed, hp, hf]) rfl rfl hp, BitVec.toNat_ofNat,
    Nat.mod_eq_of_lt (by omega)]

theorem assemble_write {c : Config} {p d : Nat} (hp : p ≤ 255) (hd : d ≤ 255) :
    assemble c (.write p d) = some [.host (.write 0 (BitVec.ofNat 32 (0x40000000 + p * 65536 + d)))] := by
  have hlo : ((BitVec.ofNat 8 d).setWidth 16).toNat = d := by
    simp only [BitVec.toNat_setWidth, BitVec.toNat_ofNat]
    omega
  rw [assemble_packed (row := 0x40000000) (by simp [AsmLine.wellFormed, hp, hd]) rfl rfl hp, hlo]

theorem assemble_pinOnly {c : Config} {l : AsmLine} {op : BitVec 4} {row p : Nat}
    (hwf : l.wellFormed c = decide (p ≤ 255))
    (hitems : asmItems c l = [.host (.write 0 (packFields op (BitVec.ofNat 8 p) 0))])
    (hrow : op.toNat * 268435456 = row) (hp : p ≤ 255) :
    assemble c l = some [.host (.write 0 (BitVec.ofNat 32 (row + p * 65536)))] := by
  simpa using assemble_packed (hwf.trans (decide_eq_true hp)) hitems hrow hp

/-- Settles O58: an accepted line gives its items, whose words are packed from operands in range; `INIT p` has the items
of `INIT p, MAX_FREQUENCY` by definition; an operand out of range is refused. -/
theorem assemblerFollowsTheSyntax : Obligations.AssemblerFollowsTheSyntax := by
  unfold Obligations.AssemblerFollowsTheSyntax
  intro c p f d n _
  refine ⟨rfl, fun hp => ⟨assemble_init hp, rfl, assemble_pinOnly rfl rfl rfl hp, assemble_pinOnly rfl rfl rfl hp,
    assemble_write hp, assemble_pinOnly rfl rfl rfl hp⟩, rfl, rfl, rfl, rfl, rfl, rfl, rfl, rfl,
    fun hn => ?slot, fun hp => ?duty, fun hp => ?pin, fun hf => ?freq, fun hd => ?dutyValue⟩
  case slot => exact assemble_of_wellFormed (by simp [AsmLine.wellFormed, RegName.wellFormed, hn])
  case duty => exact assemble_of_wellFormed (by simp [AsmLine.wellFormed, RegName.wellFormed, hp])
  case pin => simp [assemble_eq_none_iff, AsmLine.wellFormed, hp]
  case freq => simp [assemble_eq_none_iff, AsmLine.wellFormed, hf]
  case dutyValue => simp [assemble_eq_none_iff, AsmLine.wellFormed, hd]

end Machine
end Sys2Proof

-- The Cycle Servicer (spec/42_cycle_servicer.md rules R89 to R98): one serviced tick at the cycle boundary, one off it,
-- and a WRITE between the ticks of one cycle.
namespace Sys2Proof.Machine

theorem execTick_of_gated {s : State} (h : s.armed = false ∨ s.run = false) : execTick s = .next s := by
  rcases h with h | h <;> simp [execTick, h]

theorem execTick_of_armed {s : State} (harmed : s.armed = true) (hrun : s.run = true) :
    execTick s = .next (service s) := by
  simp [execTick, harmed, hrun]

theorem exec_tick (s : State) : exec .tick s = execTick s := rfl

/-- The falling edges of one tick off the boundary, in slot order (R92). -/
def fallingEdges (s : State) : List Event :=
  ((dispatchPins s.slots).filter (fun q => decide (s.cycle = (dutyAt s q).c ∧ (dutyAt s q).c ≠ 255))).map
    (fun q => Event.setPinLevel q false)

theorem service_off_boundary {s : State} (hmid : s.cycle ≠ 0) :
    service s = { s with cycle := s.cycle + 1, trace := s.trace ++ fallingEdges s } := by
  rw [service, servicePins_off_boundary _ hmid]
  rfl

/-- Settles O33: SERVICE at `CYCLE` = 0 commits and drives the pins of the dispatch iteration, which is the table's prefix
of live slots. -/
theorem tickAtTheBoundaryCommits : Obligations.TickAtTheBoundaryCommits := by
  unfold Obligations.TickAtTheBoundaryCommits
  intro s harmed hrun hcycle
  refine ⟨service s, execTick_of_armed harmed hrun, ?frame, fun q => ?duty, ?trace⟩
  case frame => simpa [hcycle] using (service_frame s).1
  case duty => simp only [service_duty, hcycle, true_and, dispatchPins_eq]
  case trace => rw [service_trace_at_boundary hcycle, dispatchPins_eq]

/-- Settles O34: SERVICE off the boundary adds the falling edges and advances `CYCLE`, nothing else. -/
theorem tickOffTheBoundaryLowersPins : Obligations.TickOffTheBoundaryLowersPins := by
  unfold Obligations.TickOffTheBoundaryLowersPins
  intro s harmed hrun hmid
  have hnext : s.cycle + 1 = BitVec.ofNat 8 ((s.cycle.toNat + 1) % 256) := by
    apply BitVec.eq_of_toNat_eq
    simp [BitVec.toNat_add]
  rw [exec_tick, execTick_of_armed harmed hrun, service_off_boundary hmid, fallingEdges, dispatchPins_eq, hnext]

/-! ### A WRITE between ticks -/

/-- The state after WRITE (R108). -/
def written (p : Pin) (d : Duty) (s : State) : State := setResult true false 0 (setPending p d s)

theorem exec_write (p : Pin) (d : Duty) (s : State) : exec (.write p d) s = .next (written p d s) := rfl

theorem committed_written (p q : Pin) (d : Duty) (s : State) : (dutyAt (written p d s) q).c = (dutyAt s q).c := by
  rw [written, dutyAt_setResult, dutyAt_setPending]
  split
  · next h => rw [h]
  · rfl

theorem pending_written (p : Pin) (d : Duty) (s : State) : (dutyAt (written p d s) p).p = d := by
  rw [written, dutyAt_setResult, dutyAt_setPending, if_pos rfl]

/-- The edges look at committed duties only, which WRITE leaves (R108). -/
theorem fallingEdges_written (p : Pin) (d : Duty) (s : State) : fallingEdges (written p d s) = fallingEdges s := by
  simp only [fallingEdges, committed_written]
  rfl

theorem service_written {s : State} (hmid : s.cycle ≠ 0) (p : Pin) (d : Duty) :
    service (written p d s) = written p d (service s) := by
  have hmid' : (written p d s).cycle ≠ 0 := hmid
  rw [service_off_boundary hmid', service_off_boundary hmid, fallingEdges_written]
  rfl

/-- Off the boundary TICK and WRITE commute, whether the tick is serviced or not. -/
theorem execTick_written {s : State} (hmid : s.cycle ≠ 0) (p : Pin) (d : Duty) :
    ∃ t, execTick s = .next t ∧ execTick (written p d s) = .next (written p d t) ∧ t.inputs = s.inputs ∧
      (t.cycle = s.cycle ∨ t.cycle = s.cycle + 1) := by
  rcases execTick_cases s with ⟨hgate, htick⟩ | ⟨harmed, hrun, htick⟩
  · exact ⟨s, htick, execTick_of_gated hgate, rfl, .inl rfl⟩
  · have htickw : execTick (written p d s) = .next (written p d (service s)) := by
      rw [← service_written hmid]
      exact execTick_of_armed harmed hrun
    rw [service_off_boundary hmid] at htick htickw
    exact ⟨_, htick, htickw, rfl, .inr rfl⟩

theorem step_tick_written {s : State} {rest : List Input} (hs : s.inputs = .tickIn 1 :: rest) (hmid : s.cycle ≠ 0)
    (p : Pin) (d : Duty) :
    ∃ t, step s = .next t ∧ step (written p d s) = .next (written p d t) ∧ t.inputs = rest ∧
      (t.cycle = s.cycle ∨ t.cycle = s.cycle + 1) := by
  obtain ⟨t, ht, htw, hinputs, hcycle⟩ := execTick_written (s := { s with inputs := rest }) hmid p d
  exact ⟨t, (step_tick hs).trans ht, (step_tick (s := written p d s) hs).trans htw, hinputs, hcycle⟩

/-- A run of ticks to the end of the cycle commutes with a WRITE before it (R98). -/
theorem runSteps_ticks_written {k : Nat} {s : State} {rest : List Input} (hmid : k ≠ 0 → s.cycle ≠ 0)
    (hk : s.cycle.toNat + k ≤ 256) (hs : s.inputs = List.replicate k (.tickIn 1) ++ rest) (p : Pin) (d : Duty) :
    ∃ t, runSteps k s = .next t ∧ runSteps k (written p d s) = .next (written p d t) := by
  induction k generalizing s with
  | zero => exact ⟨s, rfl, rfl⟩
  | succ k ih =>
    have hmid := hmid k.succ_ne_zero
    obtain ⟨t, hstep, hstepw, hinputs, hcycle⟩ := step_tick_written hs hmid p d
    obtain ⟨hmidt, hkt⟩ : (k ≠ 0 → t.cycle ≠ 0) ∧ t.cycle.toNat + k ≤ 256 := by
      rcases hcycle with h | h <;> rw [h]
      · exact ⟨fun _ => hmid, by omega⟩
      · bv_omega
    simpa only [runSteps, hstep, hstepw] using ih hmidt hkt hinputs

/-- Settles O54: off the boundary WRITE commutes with every tick, so it changes only its pending duty and `RESULT`; the
tick at the boundary commits that duty. -/
theorem midCycleWriteWaitsForTheBoundary : Obligations.MidCycleWriteWaitsForTheBoundary := by
  unfold Obligations.MidCycleWriteWaitsForTheBoundary
  intro s w p d k rest hwrite
  obtain rfl : written p d s = w := by simpa [exec_write] using hwrite
  refine ⟨fun hmid hk hs => ?inCycle, fun hcycle harmed hrun hlive => ?atBoundary⟩
  case inCycle =>
    obtain ⟨t, hrun, hrunw⟩ := runSteps_ticks_written (fun _ => hmid) hk hs p d
    exact ⟨t, written p d t, hrun, hrunw, rfl, rfl, fun q => committed_written p q d t, pending_written p d t⟩
  case atBoundary =>
    have hcycle : (written p d s).cycle = 0 := hcycle
    have hlive : p ∈ dispatchPins (written p d s).slots := by rwa [dispatchPins_eq]
    refine ⟨service (written p d s), execTick_of_armed harmed hrun, ?_, ?_⟩
    · rw [service_duty, if_pos ⟨hcycle, hlive⟩, pending_written]
    · rw [service_level hlive, if_pos hcycle, pending_written]

end Sys2Proof.Machine

-- The channel commands (spec/43_channel_lifecycle.md): NOP (R102) and WRITE (R108).
namespace Sys2Proof.Machine

theorem exec_nop (s : State) : exec .nop s = .next s := rfl

/-- Settles O22: the four fields of the word 0 are those of NOP's row, and `exec` answers the state it was given. -/
theorem nopChangesNothing : Obligations.NopChangesNothing := by
  unfold Obligations.NopChangesNothing
  exact ⟨decode_eq_nop_iff.2 (by decide), exec_nop⟩

/-- The word of WRITE as the sum R108 writes for it. -/
theorem encode_write (p : Pin) (d : Duty) :
    encode (.write p d) = .cmdWord (BitVec.ofNat 32 (0x40000000 + p.toNat * 65536 + d.toNat)) := by
  have harg : (d.setWidth 16).toNat = d.toNat := BitVec.toNat_setWidth_of_le (by decide)
  rw [encode, packFields_eq_ofNat, harg]
  rfl

theorem regRead_result_of_ok {s : State} (h : s.result = ⟨true, false, 0⟩) : regRead 1 s = 0x00000001 := by
  rw [regRead_result, resultNat, h]
  rfl

theorem dutyAt_written (p q : Pin) (d : Duty) (s : State) :
    dutyAt (written p d s) q = if q = p then ⟨(dutyAt s p).c, d⟩ else dutyAt s q := by
  rw [written, dutyAt_setResult, dutyAt_setPending]

/-- Settles O31: the word is the encoding of WRITE; the state after it differs in one pending duty and `RESULT`. -/
theorem writeStoresThePendingDuty : Obligations.WriteStoresThePendingDuty := by
  unfold Obligations.WriteStoresThePendingDuty
  intro p d
  refine ⟨decode_cmdWord_eq_ok_iff.2 (encode_write p d), fun s =>
    ⟨written p d s, exec_write p d s, ?frame, ?result, ?written, fun q hq => ?others⟩⟩
  case frame => rfl
  case result => exact regRead_result_of_ok rfl
  case written => rw [dutyAt_written, if_pos rfl]
  case others => rw [dutyAt_written, if_neg hq]

end Sys2Proof.Machine

-- The exceptions (spec/60_exceptions.md): nothing stops the block (R118), the order of a pulse and a transaction that meet
-- (R120, R121), and the INIT out of range (R114).
namespace Sys2Proof.Machine

theorem step_of_inputs {s : State} {i : Input} {rest : List Input} (h : s.inputs = i :: rest) :
    step s = serveInput i { s with inputs := rest } := by
  rw [step, h]

/-- Every input still to come is admissible (R45, R118, R124). -/
def InputsAdmissible (s : State) : Prop := ∀ i ∈ s.inputs, admissible i = true

theorem InputsAdmissible.of_inputs_eq {s t : State} (h : InputsAdmissible s) (ht : t.inputs = s.inputs) :
    InputsAdmissible t := by
  rwa [InputsAdmissible, ht]

theorem InputsAdmissible.holdInput {i : Input} {s : State} (h : InputsAdmissible s) (hi : admissible i = true) :
    InputsAdmissible (holdInput i s) :=
  List.forall_mem_cons.2 ⟨hi, h⟩

/-- An admissible input is always served, and what it holds back for the next step is admissible too. -/
theorem serveInput_next_of_admissible {i : Input} {s : State} (hi : admissible i = true) (hs : InputsAdmissible s) :
    ∃ t, serveInput i s = .next t ∧ InputsAdmissible t := by
  -- A signal and a transaction leave the inputs still to come, so only those of the state they start from matter.
  have signal (x : Signal) {u : State} (hu : InputsAdmissible u) : ∃ t, runSignal x u = .next t ∧ InputsAdmissible t :=
    (runSignal_next x u).imp fun _ ⟨hnext, hinputs⟩ => ⟨hnext, hu.of_inputs_eq hinputs⟩
  have txn (x : HostTxn) {u : State} (hu : InputsAdmissible u) : ∃ t, hostStep x u = .next t ∧ InputsAdmissible t :=
    (hostStep_next x u).imp fun _ ⟨hnext, hinputs⟩ => ⟨hnext, hu.of_inputs_eq hinputs⟩
  cases i with
  | host x => exact txn x hs
  | tickIn v => exact signal (.tickIn v) hs
  | rst => exact ⟨resetBlock s, rfl, hs⟩
  | hostWithTick x => exact signal (.tickIn 1) (hs.holdInput rfl)
  | tickDuringHost x => exact txn x (hs.holdInput rfl)
  | tickDuringTick => cases hi
  | bridge offset x =>
    obtain ⟨y, hy⟩ := Option.isSome_iff_exists.1 hi
    simp only [serveInput, hy]
    exact txn y hs

theorem step_next_of_admissible {s : State} (hs : InputsAdmissible s) : ∃ t, step s = .next t ∧ InputsAdmissible t := by
  cases hinputs : s.inputs with
  | nil => exact ⟨s, by rw [step, hinputs], hs⟩
  | cons i rest =>
    rw [InputsAdmissible, hinputs, List.forall_mem_cons] at hs
    obtain ⟨hi, hrest⟩ := hs
    rw [step_of_inputs hinputs]
    exact serveInput_next_of_admissible hi hrest

/-- Settles O19: a step over admissible inputs has a next state whose inputs are admissible again, so by induction on the
number of steps a run goes on. -/
theorem admissibleRunsNeverStop : Obligations.AdmissibleRunsNeverStop := by
  unfold Obligations.AdmissibleRunsNeverStop
  intro s k hs
  induction k generalizing s with
  | zero => exact ⟨s, rfl⟩
  | succ k ih =>
    obtain ⟨t, hstep, ht⟩ := step_next_of_admissible hs
    simpa only [runSteps, hstep] using ih t ht

/-- Settles O18: a pulse presented with a transaction is served as TICK with the transaction held back; one that arrives
during a transaction's step is held back itself. -/
theorem pulseAndTransactionAreOrdered : Obligations.PulseAndTransactionAreOrdered := by
  unfold Obligations.PulseAndTransactionAreOrdered
  refine fun s x rest => ⟨fun hs => ?together, fun hs => ?during⟩
  case together => rw [step_of_inputs hs]; rfl
  case during => rw [step_of_inputs hs]; rfl

/-- Settles O23: the range check of INIT fails, and nothing is written but `RESULT`. -/
theorem initOutOfRangeChangesOnlyResult : Obligations.InitOutOfRangeChangesOnlyResult := by
  unfold Obligations.InitOutOfRangeChangesOnlyResult
  intro s p f hf
  have hout : ¬FrequencyInRange s.config f := by omega
  exact execInit_of_outOfRange hout

end Sys2Proof.Machine

-- Reset (spec/70_reset_and_hazards.md): `rst` from any state (R133 to R135).
namespace Sys2Proof.Machine

theorem dutyAt_resetBlock (s : State) (p : Pin) : dutyAt (resetBlock s) p = ⟨0, 0⟩ :=
  Vector.getElem_replicate (pin_lt p)

theorem step_rst {s : State} {rest : List Input} (hs : s.inputs = .rst :: rest) :
    step s = .next (resetBlock { s with inputs := rest }) :=
  step_of_inputs hs

/-- Settles O3: the step that takes `rst` is the reset of the block, which writes every state element whatever it held. -/
theorem rstRestoresResetValues : Obligations.RstRestoresResetValues := by
  unfold Obligations.RstRestoresResetValues
  intro s rest hs
  exact ⟨_, step_rst hs, rfl, rfl, rfl, rfl, rfl, rfl, rfl, rfl, dutyAt_resetBlock _, rfl, rfl⟩

end Sys2Proof.Machine

-- Encodings (spec/30_encoding.md): the command words and `tick_in` both ways (R53 to R57, R62), and the event words
-- (R60, R61).
namespace Sys2Proof

/-- Settles O4: the fields of a packed word are those it was packed from, so the decoder finds the row and the operands
that the encoder wrote. -/
theorem decodeOfEncodeIsTheInstruction : Obligations.DecodeOfEncodeIsTheInstruction := by
  unfold Obligations.DecodeOfEncodeIsTheInstruction
  exact decode_encode

theorem encode_of_decode_tickIn {v : BitVec 1} {i : Instr} (h : decode (.tickIn v) = .ok i) :
    encode i = .tickIn v := by
  rw [decode] at h
  split at h
  · next hv => cases h; rw [encode, hv]
  · cases h

/-- Settles O5: a word is fixed by the fields the decoder has read, and the one pulse is `tick_in` = 1. -/
theorem encodeOfDecodeIsTheSignal : Obligations.EncodeOfDecodeIsTheSignal := by
  unfold Obligations.EncodeOfDecodeIsTheSignal
  intro x i h
  cases x with
  | cmdWord w => exact encode_of_decodeCmd h
  | tickIn v => exact encode_of_decode_tickIn h

/-- Settles O9: each word is evaluated by the decoder. -/
theorem specWordsDecode : Obligations.SpecWordsDecode := by
  unfold Obligations.SpecWordsDecode
  decide

namespace Machine

theorem eventWord_toNat (e : Event) :
    (eventWord e).toNat =
      (eventKind e).toNat * 268435456 + (eventSelector e).toNat * 65536 + (eventArg e).toNat :=
  packFields_toNat _ _ _

theorem eventArg_setPinLevel_toNat (p : Pin) (level : Bool) : (eventArg (.setPinLevel p level)).toNat = level.toNat := by
  cases level <;> rfl

theorem eventKind_bounds (e : Event) : 1 ≤ (eventKind e).toNat ∧ (eventKind e).toNat ≤ 7 := by
  cases e <;> simp [eventKind]

/-- Settles O10: an event word is the sum of its packed fields; `KIND` and the reserved bits are read back from it. -/
theorem eventWordsFollowTheFormat : Obligations.EventWordsFollowTheFormat := by
  unfold Obligations.EventWordsFollowTheFormat
  refine ⟨fun p level => ?level, fun p => ?mode, fun sel reload => ?rate, by decide, by decide, by decide,
    by decide, fun e => ?fields⟩
  case level => rw [eventWord_toNat, eventArg_setPinLevel_toNat]; simp [eventKind, eventSelector]
  case mode => rw [eventWord_toNat]; simp [eventKind, eventSelector, eventArg]
  case rate => rw [eventWord_toNat]; simp [eventKind, eventSelector, eventArg]
  case fields =>
    have hkind : (eventWord e).extractLsb' 28 4 = eventKind e := opField_packFields _ _ _
    rw [hkind]
    exact ⟨(eventKind_bounds e).1, (eventKind_bounds e).2, rsvField_packFields _ _ _⟩

theorem eventWord_eq_iff {e e' : Event} :
    eventWord e = eventWord e' ↔
      eventKind e = eventKind e' ∧ eventSelector e = eventSelector e' ∧ eventArg e = eventArg e' := by
  rw [eventWord, packFields_eq_iff, eventWord, opField_packFields, rsvField_packFields, pinField_packFields,
    argField_packFields]
  simp [eq_comm]

/-- The event that three fields of an event word stand for (R60, R61); other kinds are read as `HALT_COUNTING`. -/
def eventOfFields (kind : BitVec 4) (selector : BitVec 8) (arg : BitVec 16) : Event :=
  if kind = 1 then .setPinLevel selector (decide (arg = 1))
  else if kind = 2 then .setOutputMode selector
  else if kind = 3 then .configureRate selector arg
  else if kind = 4 then .resetCounter
  else if kind = 5 then .armInterrupt
  else if kind = 6 then .disarmInterrupt
  else .haltCounting

theorem eventOfFields_of_event (e : Event) : eventOfFields (eventKind e) (eventSelector e) (eventArg e) = e := by
  cases e with
  | setPinLevel p level => cases level <;> rfl
  | _ => rfl

/-- Settles O11: the word gives its three fields, and the fields give the event. -/
theorem eventWordsAreDistinct : Obligations.EventWordsAreDistinct := by
  unfold Obligations.EventWordsAreDistinct
  intro e e' h
  obtain ⟨hkind, hselector, harg⟩ := eventWord_eq_iff.1 h
  rw [← eventOfFields_of_event e, hkind, hselector, harg, eventOfFields_of_event]

end Machine
end Sys2Proof

-- The ports (spec/20_memory.md, spec/30_encoding.md): what the step of each input runs (R41, R43, R62, R101), and the
-- register window (R27, R38, R39).
namespace Sys2Proof.Machine

theorem runSignal_of_decode {x : Signal} {i : Instr} (h : decode x = .ok i) (s : State) : runSignal x s = exec i s := by
  rcases runSignal_cases x s with ⟨j, hj, hrun⟩ | ⟨_, he, -, -⟩ | ⟨he, -⟩
  · rw [h] at hj; cases hj; exact hrun
  · rw [h] at he; cases he
  · rw [h] at he; cases he

theorem step_tickIn {s : State} {v : BitVec 1} {rest : List Input} (h : s.inputs = .tickIn v :: rest) :
    step s = runSignal (.tickIn v) { s with inputs := rest } :=
  step_of_inputs h

/-- Settles O12: the step of a command word and of a level of `tick_in` is that of the signal, which runs what it decodes
to; `tick_in` = 0 decodes to no event. -/
theorem stepRunsTheDecodedInstruction : Obligations.StepRunsTheDecodedInstruction := by
  unfold Obligations.StepRunsTheDecodedInstruction
  refine fun s rest => ⟨fun w i hs hd => ?word, fun i hs hd => ?pulse, fun hs => ?noEvent⟩
  case word => rw [step_cmdWord hs, runSignal_of_decode hd]
  case pulse => rw [step_tickIn hs, runSignal_of_decode hd]
  case noEvent => rw [step_tickIn hs]; rfl

theorem serveInput_inputOfSignal (x : Signal) (s : State) : serveInput (inputOfSignal x) s = runSignal x s := by
  cases x <;> rfl

theorem decodeTableWord_eq_some_iff {nbits w : Nat} {i : Instr} :
    decodeTableWord nbits w = some i ↔ decode (signalOfTable nbits w) = .ok i := by
  rw [decodeTableWord]
  cases decode (signalOfTable nbits w) <;> simp

/-- Settles O13: the input placed in front carries the row's signal, and taking it gives back the state before. -/
theorem placedInstructionRunsNext : Obligations.PlacedInstructionRunsNext := by
  unfold Obligations.PlacedInstructionRunsNext
  intro s nbits w i h
  have hs : (s.withFetchWord nbits w).inputs = inputOfSignal (signalOfTable nbits w) :: s.inputs := rfl
  rw [step_of_inputs hs, serveInput_inputOfSignal, runSignal_of_decode (decodeTableWord_eq_some_iff.1 h)]
  rfl

/-- Settles O14: the read is answered from the block's fields, which taking the input does not touch. -/
theorem hostReadChangesNoState : Obligations.HostReadChangesNoState := by
  unfold Obligations.HostReadChangesNoState
  intro s a rest hs
  rw [step_of_inputs hs]
  simp only [serveInput, hostStep]
  rw [regRead_ports a s s.trace s.replies rest]

/-- Settles O16: `RegWrite` looks at word 0 only. -/
theorem onlyCmdIsWritable : Obligations.OnlyCmdIsWritable := by
  unfold Obligations.OnlyCmdIsWritable
  intro s a v rest ha hs
  rw [step_of_inputs hs]
  simp only [serveInput, hostStep, regWrite, if_neg ha]

/-! ### The register window -/

/-- The bits of a read word as those of the number it was made from. -/
theorem extractLsb'_ofNat_toNat (n : Nat) {start len : Nat} (h : start + len ≤ 32) :
    ((BitVec.ofNat 32 n).extractLsb' start len).toNat = n / 2 ^ start % 2 ^ len := by
  have hpow : 2 ^ 32 = 2 ^ start * 2 ^ (32 - start) := by rw [← pow_add]; congr 1; omega
  have hdvd : 2 ^ len ∣ 2 ^ (32 - start) := pow_dvd_pow 2 (by omega)
  rw [BitVec.extractLsb'_toNat, BitVec.toNat_ofNat, Nat.shiftRight_eq_div_pow, hpow, Nat.mod_mul_right_div_self,
    Nat.mod_mod_of_dvd _ hdvd]

theorem bit_eq_toNat (b : Bool) : bit b = b.toNat := by cases b <;> rfl

theorem resultNat_eq (s : State) :
    resultNat s = s.result.err.toNat * 16 + s.result.empty.toNat * 2 + s.result.ok.toNat := by
  simp [resultNat, bit_eq_toNat, Nat.shiftLeft_eq]

theorem statusNat_eq (s : State) :
    statusNat s = s.live.toNat * 256 + s.run.toNat * 4 + s.armed.toNat * 2 + s.init.toNat := by
  simp [statusNat, bit_eq_toNat, Nat.shiftLeft_eq]

theorem tcfgNat_eq (s : State) : tcfgNat s = s.tcfgSel.toNat * 65536 + s.tcfgReload.toNat := by
  simp [tcfgNat, Nat.shiftLeft_eq]

theorem paramNat_eq (s : State) : paramNat s = s.config.maxFrequency * 65536 + s.config.maxChannels := by
  simp [paramNat, Nat.shiftLeft_eq]

theorem slotNat_of_getElem? {s : State} {i : Nat} {x : Slot} (h : s.slots[i]? = some x) :
    slotNat s i = x.valid.toNat * 2147483648 + x.pin.toNat := by
  simp [slotNat, h, bit_eq_toNat, Nat.shiftLeft_eq]

/-- The rows of R39 that stand at one address. -/
theorem regRead_fixed {a : WordAddr} (s : State) :
    (a.toNat = 0 → regRead a s = 0) ∧ (a.toNat = 1 → regRead a s = BitVec.ofNat 32 (resultNat s)) ∧
      (a.toNat = 2 → regRead a s = BitVec.ofNat 32 (statusNat s)) ∧
      (a.toNat = 3 → regRead a s = BitVec.ofNat 32 s.cycle.toNat) ∧
      (a.toNat = 4 → regRead a s = BitVec.ofNat 32 (tcfgNat s)) ∧
      (a.toNat = 5 → regRead a s = BitVec.ofNat 32 (paramNat s)) := by
  refine ⟨fun h => ?_, fun h => ?_, fun h => ?_, fun h => ?_, fun h => ?_, fun h => ?_⟩ <;> simp [regRead, h]

/-- The rows of R39 from word 6 on. -/
theorem regRead_of_six_le {a : WordAddr} (h : 6 ≤ a.toNat) (s : State) :
    regRead a s = BitVec.ofNat 32
      (if 16 ≤ a.toNat ∧ a.toNat < 16 + s.config.maxChannels then slotNat s (a.toNat - 16)
        else if 256 ≤ a.toNat then dutyNat s (a.toNat - 256) else 0) := by
  rw [regRead, if_neg (by omega), if_neg (by omega), if_neg (by omega), if_neg (by omega), if_neg (by omega),
    if_neg (by omega)]

theorem regRead_slot {a : WordAddr} {s : State} {i : Nat} (ha : a.toNat = 16 + i) (hi : i < s.config.maxChannels) :
    regRead a s = BitVec.ofNat 32 (slotNat s i) := by
  rw [regRead_of_six_le (by omega), if_pos (by omega), ha, Nat.add_sub_cancel_left]

theorem regRead_duty {a : WordAddr} {s : State} {p : Pin} (ha : a.toNat = 256 + p.toNat)
    (hmax : s.config.maxChannels ≤ 16) :
    regRead a s = BitVec.ofNat 32 ((dutyAt s p).p.toNat * 256 + (dutyAt s p).c.toNat) := by
  rw [regRead_of_six_le (by omega), if_neg (by omega), if_pos (by omega), ha, Nat.add_sub_cancel_left, dutyNat_pin]

theorem regRead_unmapped {a : WordAddr} {s : State}
    (ha : (6 ≤ a.toNat ∧ a.toNat ≤ 15) ∨ (16 + s.config.maxChannels ≤ a.toNat ∧ a.toNat ≤ 255)) :
    regRead a s = 0 := by
  rw [regRead_of_six_le (by omega), if_neg (by omega), if_neg (by omega)]
  rfl

/-- A field of a read word, from the number the word was made from. -/
theorem extractLsb'_ofNat_eq {n start len : Nat} {v : BitVec len} (h : start + len ≤ 32)
    (hv : n / 2 ^ start % 2 ^ len = v.toNat) : (BitVec.ofNat 32 n).extractLsb' start len = v :=
  BitVec.eq_of_toNat_eq ((extractLsb'_ofNat_toNat n h).trans hv)

theorem extractLsb'_ofNat_eq_zero {n start len : Nat} (h : start + len ≤ 32) (hv : n / 2 ^ start % 2 ^ len = 0) :
    (BitVec.ofNat 32 n).extractLsb' start len = 0 :=
  extractLsb'_ofNat_eq h (by simpa using hv)

theorem extractLsb'_ofNat_eq_ofBool {n start : Nat} {b : Bool} (h : start + 1 ≤ 32) (hv : n / 2 ^ start % 2 = b.toNat) :
    (BitVec.ofNat 32 n).extractLsb' start 1 = BitVec.ofBool b :=
  extractLsb'_ofNat_eq h (by simpa using hv)

theorem result_fields (s : State) :
    let w := BitVec.ofNat 32 (resultNat s)
    w.extractLsb' 0 1 = BitVec.ofBool s.result.ok ∧ w.extractLsb' 1 1 = BitVec.ofBool s.result.empty ∧
      w.extractLsb' 2 2 = 0 ∧ w.extractLsb' 4 4 = s.result.err ∧ w.extractLsb' 8 24 = 0 := by
  have hok := s.result.ok.toNat_lt
  have hempty := s.result.empty.toNat_lt
  have herr := s.result.err.isLt
  simp only [resultNat_eq]
  exact ⟨extractLsb'_ofNat_eq_ofBool (by decide) (by omega), extractLsb'_ofNat_eq_ofBool (by decide) (by omega),
    extractLsb'_ofNat_eq_zero (by decide) (by omega), extractLsb'_ofNat_eq (by decide) (by omega),
    extractLsb'_ofNat_eq_zero (by decide) (by omega)⟩

theorem status_fields (s : State) :
    let w := BitVec.ofNat 32 (statusNat s)
    w.extractLsb' 0 1 = BitVec.ofBool s.init ∧ w.extractLsb' 1 1 = BitVec.ofBool s.armed ∧
      w.extractLsb' 2 1 = BitVec.ofBool s.run ∧ w.extractLsb' 3 5 = 0 ∧ w.extractLsb' 8 8 = s.live ∧
      w.extractLsb' 16 16 = 0 := by
  have hinit := s.init.toNat_lt
  have harmed := s.armed.toNat_lt
  have hrun := s.run.toNat_lt
  have hlive := s.live.isLt
  simp only [statusNat_eq]
  exact ⟨extractLsb'_ofNat_eq_ofBool (by decide) (by omega), extractLsb'_ofNat_eq_ofBool (by decide) (by omega),
    extractLsb'_ofNat_eq_ofBool (by decide) (by omega), extractLsb'_ofNat_eq_zero (by decide) (by omega),
    extractLsb'_ofNat_eq (by decide) (by omega), extractLsb'_ofNat_eq_zero (by decide) (by omega)⟩

theorem cycle_fields (s : State) :
    let w := BitVec.ofNat 32 s.cycle.toNat
    w.extractLsb' 0 8 = s.cycle ∧ w.extractLsb' 8 24 = 0 := by
  have hcycle := s.cycle.isLt
  exact ⟨extractLsb'_ofNat_eq (by decide) (by omega), extractLsb'_ofNat_eq_zero (by decide) (by omega)⟩

theorem tcfg_fields (s : State) :
    let w := BitVec.ofNat 32 (tcfgNat s)
    w.extractLsb' 0 16 = s.tcfgReload ∧ w.extractLsb' 16 8 = s.tcfgSel ∧ w.extractLsb' 24 8 = 0 := by
  have hsel := s.tcfgSel.isLt
  have hreload := s.tcfgReload.isLt
  simp only [tcfgNat_eq]
  exact ⟨extractLsb'_ofNat_eq (by decide) (by omega), extractLsb'_ofNat_eq (by decide) (by omega),
    extractLsb'_ofNat_eq_zero (by decide) (by omega)⟩

theorem param_fields {s : State} (hvalid : s.config.Valid) :
    let w := BitVec.ofNat 32 (paramNat s)
    (w.extractLsb' 0 8).toNat = s.config.maxChannels ∧ w.extractLsb' 8 8 = 0 ∧
      (w.extractLsb' 16 16).toNat = s.config.maxFrequency := by
  obtain ⟨hchannels, hfreq, -⟩ := hvalid
  simp only [paramNat_eq]
  exact ⟨(extractLsb'_ofNat_toNat _ (by decide)).trans (by omega), extractLsb'_ofNat_eq_zero (by decide) (by omega),
    (extractLsb'_ofNat_toNat _ (by decide)).trans (by omega)⟩

theorem slot_fields (x : Slot) :
    let w := BitVec.ofNat 32 (x.valid.toNat * 2147483648 + x.pin.toNat)
    w.extractLsb' 0 8 = x.pin ∧ w.extractLsb' 8 23 = 0 ∧ w.extractLsb' 31 1 = BitVec.ofBool x.valid := by
  have hvalid := x.valid.toNat_lt
  have hpin := x.pin.isLt
  exact ⟨extractLsb'_ofNat_eq (by decide) (by omega), extractLsb'_ofNat_eq_zero (by decide) (by omega),
    extractLsb'_ofNat_eq_ofBool (by decide) (by omega)⟩

theorem duty_fields (d : DutyPair) :
    let w := BitVec.ofNat 32 (d.p.toNat * 256 + d.c.toNat)
    w.extractLsb' 0 8 = d.c ∧ w.extractLsb' 8 8 = d.p ∧ w.extractLsb' 16 16 = 0 := by
  have hc := d.c.isLt
  have hp := d.p.isLt
  exact ⟨extractLsb'_ofNat_eq (by decide) (by omega), extractLsb'_ofNat_eq (by decide) (by omega),
    extractLsb'_ofNat_eq_zero (by decide) (by omega)⟩

/-- Settles O15: each word is the number of its row of R39, and each field of the word is the named field of the state. -/
theorem windowReadsTheState : Obligations.WindowReadsTheState := by
  unfold Obligations.WindowReadsTheState
  intro s a hvalid hsized
  obtain ⟨hcmd, hresult, hstatus, hcycle, htcfg, hparam⟩ := regRead_fixed (a := a) s
  have hmax : s.config.maxChannels ≤ 16 := hvalid.1.2
  refine ⟨hcmd, fun ha => ?result, fun ha => ?status, fun ha => ?cycle, fun ha => ?tcfg, fun ha => ?param,
    fun i x ha hx => ?slot, fun p ha => ?duty, regRead_unmapped⟩
  case result => rw [hresult ha]; exact result_fields s
  case status => rw [hstatus ha]; exact status_fields s
  case cycle => rw [hcycle ha]; exact cycle_fields s
  case tcfg => rw [htcfg ha]; exact tcfg_fields s
  case param => rw [hparam ha]; exact param_fields hvalid
  case slot =>
    obtain ⟨hi, -⟩ := List.getElem?_eq_some_iff.1 hx
    rw [regRead_slot ha (hsized ▸ hi), slotNat_of_getElem? hx]
    exact slot_fields x
  case duty => rw [regRead_duty ha hmax]; exact duty_fields (dutyAt s p)

/-! ### The reset state -/

/-- Settles O1: the table is made of empty markers and every record of Channels is (0, 0). -/
theorem resetLeavesEverythingZero : Obligations.ResetLeavesEverythingZero := by
  unfold Obligations.ResetLeavesEverythingZero
  refine ⟨rfl, fun x hx => ?slots, rfl, rfl, rfl, rfl, rfl, rfl, rfl, fun p => ?duty, rfl, rfl⟩
  case slots => rw [List.eq_of_mem_replicate hx]; exact ⟨rfl, rfl⟩
  case duty => exact Vector.getElem_replicate (pin_lt p)

theorem slotNat_reset (i : Nat) : slotNat State.reset i = 0 := by
  rw [slotNat]
  split
  · next x hx => rw [List.eq_of_mem_replicate (List.mem_of_getElem? hx)]; rfl
  · rfl

theorem dutyNat_reset (p : Nat) : dutyNat State.reset p = 0 := by
  rw [dutyNat]
  split
  · next d hd =>
    obtain ⟨hp, rfl⟩ := Vector.getElem?_eq_some_iff.1 hd
    simp [State.reset]
  · rfl

/-- Settles O2: `PARAM` is evaluated under `P0`; every other row of R39 is made of fields that are 0. -/
theorem resetWindowReadsZero : Obligations.ResetWindowReadsZero := by
  unfold Obligations.ResetWindowReadsZero
  refine ⟨by decide, fun a ha => ?others⟩
  case others =>
    have h5 : a.toNat ≠ 5 := fun h => ha (BitVec.eq_of_toNat_eq h)
    obtain ⟨hcmd, hresult, hstatus, hcycle, htcfg, -⟩ := regRead_fixed (a := a) State.reset
    obtain h | h | h | h | h | h : a.toNat = 0 ∨ a.toNat = 1 ∨ a.toNat = 2 ∨ a.toNat = 3 ∨ a.toNat = 4 ∨ 6 ≤ a.toNat := by
      omega
    · exact hcmd h
    · exact hresult h
    · exact hstatus h
    · exact hcycle h
    · exact htcfg h
    · rw [regRead_of_six_le h, slotNat_reset, dutyNat_reset, ite_self, ite_self]
      rfl

end Sys2Proof.Machine

-- The Tick-Rate Programmer (spec/40_tick_rate_programmer.md): the cycle count and the prescaler choice (R70 to R72, R75).
namespace Sys2Proof.Machine

/-- Settles O21: a choice of the rules is what the machine selects, and what it selects from a valid table is a choice. -/
theorem prescaleSelectIsTheChoice : Obligations.PrescaleSelectIsTheChoice := by
  unfold Obligations.PrescaleSelectIsTheChoice
  intro c cycles sel reload hvalid
  obtain ⟨-, -, -, -, hnonempty, -⟩ := hvalid
  refine ⟨prescaleSelect_of_choice, fun h => ?selected⟩
  case selected => simpa [h] using choice_of_prescaleSelect hnonempty cycles

theorem cycleCount_eq_div (fClk f : Nat) : cycleCount fClk f = fClk / (f * 512) := by
  rw [cycleCount, Nat.div_div_eq_div_mul, Nat.mul_assoc]

theorem cycleCount_lt {fClk f : Nat} (h : fClk < 4294967296) : cycleCount fClk f < 2147483648 := by
  have := Nat.div_le_self fClk (f * 256)
  rw [cycleCount]
  omega

/-- Settles O20: the two floor divisions are one; the bounds are those of a valid parameter set, and the reload value lies
below `RES`, which fits 16 bits. -/
theorem cycleCountAndReloadAreExact : Obligations.CycleCountAndReloadAreExact := by
  unfold Obligations.CycleCountAndReloadAreExact
  intro c f hvalid hf
  obtain ⟨-, -, hclock, hres, hnonempty, -, hbounded⟩ := hvalid
  have hchoice := choice_of_prescaleSelect hnonempty (cycleCount c.fClk f.toNat)
  have hreload := choice_reload_lt (by omega) hchoice
  have hfreq := f.isLt
  refine ⟨rfl, cycleCount_eq_div _ _, by omega, by omega, cycleCount_lt hclock.2,
    fun e he => Nat.lt_succ_of_le (hbounded e he), hreload, ?fits, hchoice⟩
  case fits => rw [BitVec.toNat_ofNat, Nat.mod_eq_of_lt (by omega)]

end Sys2Proof.Machine

-- The registering and unregistering commands (spec/43_channel_lifecycle.md): INIT (R103, R104), ENABLE (R105), DISABLE and
-- DESTROY (R106, R107, R109).
namespace Sys2Proof.Machine

theorem exec_init_of_inRange {p : Pin} {f : Freq} {s : State} (hf : FrequencyInRange s.config f) :
    exec (.init p f) s = .next (registerAndReport p (prepareChannel p f s)) :=
  execInit_of_inRange hf

theorem exec_enable (p : Pin) (s : State) : exec (.enable p) s = .next (registerAndReport p s) := rfl

/-- DESTROY has the effect of DISABLE (R109). -/
theorem exec_remove {p : Pin} {i : Instr} (hi : i = .disable p ∨ i = .destroy p) (s : State) :
    exec i s = .next (removeAndReport p s) := by
  rcases hi with rfl | rfl <;> rfl

/-- An in-range INIT that finds an empty slot, over its preparation, which leaves the table (R103). -/
theorem exec_init_of_firstEmpty {p : Pin} {f : Freq} {s : State} {before after : List Slot} {x : Slot}
    (hf : FrequencyInRange s.config f) (h : FirstEmpty s.slots before x after) :
    exec (.init p f) s = .next { prepareChannel p f s with
      slots := before ++ ⟨true, p⟩ :: after, live := (prepareChannel p f s).live + 1
      duty := (prepareChannel p f s).duty.set p.toNat ⟨0, 0⟩ (pin_lt p), result := ⟨true, false, 0⟩ } := by
  rw [exec_init_of_inRange hf, registerAndReport_of_firstEmpty (by rwa [(prepareChannel_frame p f s).1])]

/-- An in-range INIT on a full table, over its preparation (R104 (c)). -/
theorem exec_init_of_full {p : Pin} {f : Freq} {s : State} (hf : FrequencyInRange s.config f)
    (h : ∀ x ∈ s.slots, x.valid = true) :
    exec (.init p f) s = .next { prepareChannel p f s with result := ⟨false, false, 2⟩ } := by
  rw [exec_init_of_inRange hf, registerAndReport_of_full (by rwa [(prepareChannel_frame p f s).1])]

/-- Settles O24: the first in-range INIT prepares the timer and the pin mode, and REGISTER takes the first empty slot. -/
theorem firstInitSetsUpAndRegisters : Obligations.FirstInitSetsUpAndRegisters := by
  unfold Obligations.FirstInitSetsUpAndRegisters
  intro s p f sel reload before after x hinit hf hchoice hempty
  rw [exec_init_of_firstEmpty hf hempty, prepareChannel_of_first hinit hf hchoice]

/-- Settles O25: a later in-range INIT prepares the pin mode only, and REGISTER takes the first empty slot. -/
theorem laterInitOnlyRegisters : Obligations.LaterInitOnlyRegisters := by
  unfold Obligations.LaterInitOnlyRegisters
  intro s p f before after x hinit hf hempty
  rw [exec_init_of_firstEmpty hf hempty, prepareChannel_of_init hinit hf]
  rfl

/-- Settles O26: the preparation is done before REGISTER finds the table full. -/
theorem initOnFullTableKeepsPartialState : Obligations.InitOnFullTableKeepsPartialState := by
  unfold Obligations.InitOnFullTableKeepsPartialState
  refine fun s p f hf hfull => ⟨fun hinit => ?later, fun sel reload hinit hchoice => ?first⟩
  case later =>
    rw [exec_init_of_full hf hfull, prepareChannel_of_init hinit hf]
    rfl
  case first => rw [exec_init_of_full hf hfull, prepareChannel_of_first hinit hf hchoice]

/-- Settles O27: ENABLE is REGISTER and its report. -/
theorem enableTakesTheFirstEmptySlot : Obligations.EnableTakesTheFirstEmptySlot := by
  unfold Obligations.EnableTakesTheFirstEmptySlot
  intro s p before after x hempty
  rw [exec_enable, registerAndReport_of_firstEmpty hempty]

/-- Settles O28: REGISTER changes nothing on a full table. -/
theorem enableOnFullTableChangesOnlyResult : Obligations.EnableOnFullTableChangesOnlyResult := by
  unfold Obligations.EnableOnFullTableChangesOnlyResult
  intro s p hfull
  rw [exec_enable, registerAndReport_of_full hfull]

/-- UNREGISTER, TEARDOWN and the report of a live pin (R81, R106, R107). -/
theorem removeAndReport_of_firstHolding {p : Pin} {s : State} {before after : List Slot} {x : Slot}
    (h : FirstHolding p s.slots before x after) :
    removeAndReport p s = setResult true (decide (s.live - 1 = 0)) 0
      (if s.live - 1 = 0 then
        teardown { s with slots := before ++ after ++ [Slot.empty], live := s.live - 1 }
      else { s with slots := before ++ after ++ [Slot.empty], live := s.live - 1 }) := by
  simp only [removeAndReport, unregister_of_firstHolding h, decide_eq_true_eq]

/-- UNREGISTER, TEARDOWN and the report of a pin that is not live (R82 (a), R106, R107). -/
theorem removeAndReport_of_absent {p : Pin} {s : State} (h : ∀ x ∈ s.slots, ¬(x.valid = true ∧ x.pin = p)) :
    removeAndReport p s =
      setResult false (decide (s.live = 0)) 0 (if s.live = 0 then teardown s else s) := by
  simp only [removeAndReport, unregister_of_absent h, decide_eq_true_eq]

theorem teardown_eq (s : State) :
    teardown s = { s with armed := false, run := false, trace := s.trace ++ [.disarmInterrupt, .haltCounting] } := by
  simp [teardown, emit]

/-- Settles O29: UNREGISTER closes the gap at the slot found, and TEARDOWN follows exactly when no live slot is left. -/
theorem removalClosesTheGap : Obligations.RemovalClosesTheGap := by
  unfold Obligations.RemovalClosesTheGap
  refine fun s p i before after x hi hholding => ⟨fun hlive => ?othersLive, fun hlive => ?nowEmpty⟩
  case othersLive =>
    rw [exec_remove hi, removeAndReport_of_firstHolding hholding, if_neg hlive, decide_eq_false hlive]
    rfl
  case nowEmpty =>
    rw [exec_remove hi, removeAndReport_of_firstHolding hholding, if_pos hlive, decide_eq_true hlive, teardown_eq]
    rfl

/-- Settles O30: UNREGISTER finds nothing to remove, and TEARDOWN follows exactly on an empty table. -/
theorem removalOfAnAbsentPin : Obligations.RemovalOfAnAbsentPin := by
  unfold Obligations.RemovalOfAnAbsentPin
  refine fun s p i hi habsent => ⟨fun hlive => ?othersLive, fun hlive => ?emptyTable⟩
  case othersLive =>
    rw [exec_remove hi, removeAndReport_of_absent habsent, if_neg hlive, decide_eq_false hlive]
    rfl
  case emptyTable =>
    rw [exec_remove hi, removeAndReport_of_absent habsent, if_pos hlive, decide_eq_true hlive, teardown_eq]
    rfl

end Sys2Proof.Machine

-- What every instruction keeps (spec/43_channel_lifecycle.md, section 3; spec/10_state.md, sections 2, 4 and 5): the timer
-- state, the trace, the duty pairs and `RESULT`, each said once for all of `exec`.
namespace Sys2Proof.Machine

/-! ### Traces that grow by events of one kind -/

/-- The second trace continues the first by events that all satisfy a predicate. -/
def ExtendsBy (P : Event → Prop) (a b : List Event) : Prop := ∃ events, b = a ++ events ∧ ∀ e ∈ events, P e

theorem ExtendsBy.refl (P : Event → Prop) (a : List Event) : ExtendsBy P a a :=
  ⟨[], (List.append_nil a).symm, fun _ he => absurd he List.not_mem_nil⟩

theorem ExtendsBy.trans {P : Event → Prop} {a b c : List Event} (hab : ExtendsBy P a b) (hbc : ExtendsBy P b c) :
    ExtendsBy P a c := by
  obtain ⟨es, rfl, hes⟩ := hab
  obtain ⟨fs, rfl, hfs⟩ := hbc
  exact ⟨es ++ fs, List.append_assoc a es fs, List.forall_mem_append.2 ⟨hes, hfs⟩⟩

theorem ExtendsBy.mono {P Q : Event → Prop} {a b : List Event} (h : ExtendsBy P a b) (hPQ : ∀ e, P e → Q e) :
    ExtendsBy Q a b := by
  obtain ⟨es, hb, hes⟩ := h
  exact ⟨es, hb, fun e he => hPQ e (hes e he)⟩

/-! ### The timer state -/

/-- The state elements that only INIT, TEARDOWN and TICK write (R21 to R23). -/
structure Timer where
  init : Bool
  armed : Bool
  run : Bool
  sel : BitVec 8
  reload : BitVec 16
  cycle : BitVec 8

/-- The timer state of a state. -/
def timerOf (s : State) : Timer := ⟨s.init, s.armed, s.run, s.tcfgSel, s.tcfgReload, s.cycle⟩

theorem timerOf_eq_iff {s t : State} :
    timerOf t = timerOf s ↔ t.init = s.init ∧ t.armed = s.armed ∧ t.run = s.run ∧ t.tcfgSel = s.tcfgSel ∧
      t.tcfgReload = s.tcfgReload ∧ t.cycle = s.cycle := by
  rw [timerOf, timerOf, Timer.mk.injEq]

/-- Everything a command can do to the timer state and the trace: nothing but perhaps setting a pin's mode; the set-up by
the first in-range INIT (R73, R103); TEARDOWN (R107). -/
inductive CommandEffect (s t : State) : Instr → Prop where
  | kept {i : Instr} (events : List Event) (modes : events = [] ∨ ∃ p, events = [.setOutputMode p])
      (timer : timerOf t = timerOf s) (trace : t.trace = s.trace ++ events) : CommandEffect s t i
  | started {p : Pin} {f : Freq} (sel : BitVec 8) (reload : BitVec 16) (range : FrequencyInRange s.config f)
      (first : s.init = false) (timer : timerOf t = ⟨true, true, true, sel, reload, 0⟩)
      (trace : t.trace = s.trace ++ [.configureRate sel reload, .resetCounter, .armInterrupt, .setOutputMode p]) :
      CommandEffect s t (.init p f)
  | stopped {i : Instr} (timer : timerOf t = { timerOf s with armed := false, run := false })
      (trace : t.trace = s.trace ++ [.disarmInterrupt, .haltCounting]) : CommandEffect s t i

theorem CommandEffect.of_same {s t : State} {i : Instr} (timer : timerOf t = timerOf s) (trace : t.trace = s.trace) :
    CommandEffect s t i :=
  .kept [] (.inl rfl) timer (by rw [trace, List.append_nil])

theorem timerOf_registerAndReport (p : Pin) (s : State) : timerOf (registerAndReport p s) = timerOf s := by
  obtain ⟨-, harmed, hrun, hinit, hsel, hreload, hcycle⟩ := registerAndReport_frame p s
  exact timerOf_eq_iff.2 ⟨hinit, harmed, hrun, hsel, hreload, hcycle⟩

theorem removeAndReport_effect (p : Pin) (s : State) (i : Instr) : CommandEffect s (removeAndReport p s) i := by
  rcases removeAndReport_cases p s with ⟨-, -, h⟩ | ⟨-, -, h⟩ | ⟨_, _, _, -, -, h⟩ | ⟨_, _, _, -, -, h⟩ <;> rw [h]
  · exact .of_same rfl rfl
  · exact .stopped rfl rfl
  · exact .of_same rfl rfl
  · exact .stopped rfl rfl

theorem execInit_effect {p : Pin} {f : Freq} {s t : State} (h : exec (.init p f) s = .next t) :
    CommandEffect s t (.init p f) := by
  by_cases hf : FrequencyInRange s.config f
  · rw [exec_init_of_inRange hf] at h
    cases h
    have htimer := timerOf_registerAndReport p (prepareChannel p f s)
    have htrace := (registerAndReport_frame p (prepareChannel p f s)).1
    rcases prepareChannel_cases p hf with ⟨-, hprep⟩ | ⟨hfirst, sel, reload, hprep⟩ <;> rw [hprep] at htimer htrace ⊢
    · exact .kept [.setOutputMode p] (.inr ⟨p, rfl⟩) htimer htrace
    · exact .started sel reload hf hfirst htimer htrace
  · cases (execInit_of_outOfRange hf).symm.trans h
    exact .of_same rfl rfl

theorem exec_command_effect {i : Instr} {s t : State} (hi : i ≠ .tick) (h : exec i s = .next t) :
    CommandEffect s t i := by
  cases i with
  | nop => cases h; exact .of_same rfl rfl
  | init p f => exact execInit_effect h
  | enable p =>
    cases h
    exact .of_same (timerOf_registerAndReport p s) (registerAndReport_frame p s).1
  | write p d => cases h; exact .of_same rfl rfl
  | disable p | destroy p => cases h; exact removeAndReport_effect p s _
  | tick => exact absurd rfl hi

theorem exec_tick_cases {s t : State} (h : exec .tick s = .next t) :
    ((s.armed = false ∨ s.run = false) ∧ t = s) ∨ (s.armed = true ∧ s.run = true ∧ t = service s) := by
  rcases execTick_cases s with ⟨hgate, htick⟩ | ⟨harmed, hrun, htick⟩ <;> cases htick.symm.trans h
  · exact .inl ⟨hgate, rfl⟩
  · exact .inr ⟨harmed, hrun, rfl⟩

theorem CommandEffect.extendsBy {s t : State} {i : Instr} (h : CommandEffect s t i) :
    ExtendsBy (drivesPin · = false) s.trace t.trace := by
  cases h with
  | kept events modes _ trace =>
    refine ⟨events, trace, fun e he => ?_⟩
    rcases modes with rfl | ⟨p, rfl⟩
    · cases he
    · rw [List.mem_singleton.1 he]; rfl
  | started sel reload _ _ _ trace => exact ⟨_, trace, by simp [drivesPin]⟩
  | stopped _ trace => exact ⟨_, trace, by simp [drivesPin]⟩

/-- Settles O32: the gate of TICK is `ARMED` and `RUN`. -/
theorem gatedTickDoesNothing : Obligations.GatedTickDoesNothing := by
  unfold Obligations.GatedTickDoesNothing
  exact fun _ => execTick_of_gated

/-- Settles O45: the events of a command are those of its effect, none of which drives a pin; TICK's frame is SERVICE's. -/
theorem commandsAndTicksStayApart : Obligations.CommandsAndTicksStayApart := by
  unfold Obligations.CommandsAndTicksStayApart
  refine fun s t i h => ⟨fun hi => (exec_command_effect hi h).extendsBy, ?tick⟩
  case tick =>
    rintro rfl
    rcases exec_tick_cases h with ⟨-, rfl⟩ | ⟨-, -, rfl⟩
    · exact ⟨rfl, rfl, fun _ => rfl, rfl, rfl, rfl, rfl, rfl, rfl⟩
    · obtain ⟨hframe, hpending⟩ := service_frame s
      rw [hframe] at hpending ⊢
      exact ⟨rfl, rfl, hpending, rfl, rfl, rfl, rfl, rfl, rfl⟩

/-- Settles O44: a command changes `CYCLE` only by the set-up of the first in-range INIT, a TICK only when serviced. -/
theorem cycleHasItsWriters : Obligations.CycleHasItsWriters := by
  unfold Obligations.CycleHasItsWriters
  intro s t i h hcycle
  by_cases hi : i = .tick
  case pos =>
    subst hi
    rcases exec_tick_cases h with ⟨-, rfl⟩ | ⟨harmed, hrun, rfl⟩
    · exact absurd rfl hcycle
    · refine .inl ⟨rfl, harmed, hrun, ?_⟩
      rw [(service_frame s).1]
      exact BitVec.eq_of_toNat_eq (by simp [BitVec.toNat_add])
  case neg =>
    cases exec_command_effect hi h with
    | kept _ _ timer _ => exact absurd (congrArg Timer.cycle timer) hcycle
    | started sel reload range first timer _ => exact .inr ⟨_, _, rfl, range, first, congrArg Timer.cycle timer⟩
    | stopped timer _ => exact absurd (congrArg Timer.cycle timer) hcycle

/-- An event other than those by which the block programs, restarts or arms the tick source (R61, R140). -/
def SetsUpNothing (e : Event) : Prop :=
  e ≠ .armInterrupt ∧ e ≠ .resetCounter ∧ ∀ sel reload, e ≠ .configureRate sel reload

theorem setsUpNothing_of_drivesPin {e : Event} (h : drivesPin e = true) : SetsUpNothing e := by
  cases e with
  | setPinLevel p level => simp [SetsUpNothing]
  | _ => cases h

/-- Settles O46: with `INIT` = 1 a command's effect is not the set-up, and a TICK only drives pins. -/
theorem timerIsSetUpOnce : Obligations.TimerIsSetUpOnce := by
  unfold Obligations.TimerIsSetUpOnce
  intro s t i hinit h
  by_cases hi : i = .tick
  case pos =>
    subst hi
    rcases exec_tick_cases h with ⟨-, rfl⟩ | ⟨-, -, rfl⟩
    · exact ⟨hinit, rfl, rfl, ExtendsBy.refl SetsUpNothing _⟩
    · obtain ⟨events, htrace, hdrive⟩ := service_events s
      refine ⟨?_, ?_, ?_, events, htrace, fun e he => setsUpNothing_of_drivesPin (hdrive e he)⟩ <;>
        rw [(service_frame s).1]
      exact hinit
  case neg =>
    cases exec_command_effect hi h with
    | kept events modes timer trace =>
      obtain ⟨hinit', -, -, hsel, hreload, -⟩ := timerOf_eq_iff.1 timer
      refine ⟨hinit'.trans hinit, hsel, hreload, events, trace, ?_⟩
      rcases modes with rfl | ⟨p, rfl⟩ <;> simp
    | started sel reload range first timer trace => rw [hinit] at first; cases first
    | stopped timer trace =>
      exact ⟨(congrArg Timer.init timer).trans hinit, congrArg Timer.sel timer, congrArg Timer.reload timer, _, trace,
        by simp⟩

/-! ### The duty pairs -/

/-- Everything an instruction can do to a duty pair (R16). -/
theorem exec_duty_cases {i : Instr} {s t : State} (h : exec i s = .next t) (q : Pin) :
    dutyAt t q = dutyAt s q ∨
    ((i = .enable q ∨ ∃ f, i = .init q f) ∧ dutyAt t q = ⟨0, 0⟩) ∨
    (∃ d, i = .write q d ∧ dutyAt t q = ⟨(dutyAt s q).c, d⟩) ∨
    (i = .tick ∧ s.cycle = 0 ∧ dutyAt t q = ⟨(dutyAt s q).p, (dutyAt s q).p⟩) := by
  cases i with
  | nop => cases h; exact .inl rfl
  | init p f =>
    by_cases hf : FrequencyInRange s.config f
    · cases (exec_init_of_inRange hf).symm.trans h
      have hprep : dutyAt (prepareChannel p f s) q = dutyAt s q := dutyAt_congr (prepareChannel_frame p f s).2.2.1 q
      rcases registerAndReport_duty p (prepareChannel p f s) q with hkept | ⟨rfl, hzero⟩
      · exact .inl (hkept.trans hprep)
      · exact .inr (.inl ⟨.inr ⟨f, rfl⟩, hzero⟩)
    · cases (execInit_of_outOfRange hf).symm.trans h
      exact .inl rfl
  | enable p =>
    cases h
    rcases registerAndReport_duty p s q with hkept | ⟨rfl, hzero⟩
    · exact .inl hkept
    · exact .inr (.inl ⟨.inl rfl, hzero⟩)
  | disable p | destroy p => cases h; exact .inl (dutyAt_congr (removeAndReport_frame p s).1 q)
  | write p d =>
    cases h
    by_cases hq : q = p
    · subst hq; exact .inr (.inr (.inl ⟨d, rfl, (dutyAt_written q q d s).trans (if_pos rfl)⟩))
    · exact .inl ((dutyAt_written p q d s).trans (if_neg hq))
  | tick =>
    rcases exec_tick_cases h with ⟨-, rfl⟩ | ⟨-, -, rfl⟩
    · exact .inl rfl
    · rw [service_duty]
      split
      · next hc => exact .inr (.inr (.inr ⟨rfl, hc.1, rfl⟩))
      · exact .inl rfl

/-- Settles O43: each way to change a duty pair is one of the writers, with the value it writes. -/
theorem dutyPairHasItsWriters : Obligations.DutyPairHasItsWriters := by
  unfold Obligations.DutyPairHasItsWriters
  intro s t i q h
  rcases exec_duty_cases h q with hd | ⟨hi, hd⟩ | ⟨d, hi, hd⟩ | ⟨hi, hcycle, hd⟩ <;> rw [hd]
  · exact ⟨fun hne => absurd rfl hne, fun hne => absurd rfl hne⟩
  · exact ⟨fun _ => .inr ⟨hi, rfl⟩, fun _ => .inr ⟨hi, rfl⟩⟩
  · exact ⟨fun _ => .inl hi, fun hne => absurd rfl hne⟩
  · exact ⟨fun hne => absurd rfl hne, fun _ => .inl ⟨hi, hcycle, rfl⟩⟩

/-! ### `RESULT` -/

theorem registerAndReport_result (p : Pin) (s : State) :
    (registerAndReport p s).result =
      if ∀ x ∈ s.slots, x.valid = true then ⟨false, false, 2⟩ else ⟨true, false, 0⟩ := by
  rcases registerAndReport_cases p s with ⟨hfull, h⟩ | ⟨_, x, _, ⟨hs, -, hx⟩, h⟩ <;> rw [h]
  · rw [if_pos hfull]
  · rw [if_neg fun hfull => ?_]
    rw [hfull x (by simp [hs])] at hx
    cases hx

theorem exec_init_result {p : Pin} {f : Freq} {s t : State} (h : exec (.init p f) s = .next t) :
    t.result =
      if FrequencyInRange s.config f then
        if ∀ x ∈ s.slots, x.valid = true then ⟨false, false, 2⟩ else ⟨true, false, 0⟩
      else ⟨false, false, 1⟩ := by
  by_cases hf : FrequencyInRange s.config f
  · cases (exec_init_of_inRange hf).symm.trans h
    rw [if_pos hf, registerAndReport_result, (prepareChannel_frame p f s).1]
  · cases (execInit_of_outOfRange hf).symm.trans h
    rw [if_neg hf]

theorem removeAndReport_result (p : Pin) (s : State) :
    ∃ ok empty, (removeAndReport p s).result = ⟨ok, empty, 0⟩ ∧ (empty = true → (removeAndReport p s).live = 0) := by
  rcases removeAndReport_cases p s with ⟨-, -, h⟩ | ⟨-, hlive, h⟩ | ⟨_, _, _, -, -, h⟩ | ⟨_, _, _, -, hlive, h⟩ <;> rw [h]
  · exact ⟨_, _, rfl, fun he => by cases he⟩
  · exact ⟨_, _, rfl, fun _ => hlive⟩
  · exact ⟨_, _, rfl, fun he => by cases he⟩
  · exact ⟨_, _, rfl, fun _ => hlive⟩

/-- Settles O47: only the report of a removal ever carries `EMPTY`, and it is the test of `LIVE`. -/
theorem resultReportsTheLastCommand : Obligations.ResultReportsTheLastCommand := by
  unfold Obligations.ResultReportsTheLastCommand
  intro s t i h
  cases i with
  | nop => cases h; simp
  | init p f =>
    have hempty : t.result.empty = false := by rw [exec_init_result h]; split_ifs <;> rfl
    simp [hempty]
  | enable p =>
    cases h
    have hempty : (registerAndReport p s).result.empty = false := by rw [registerAndReport_result]; split_ifs <;> rfl
    simp [hempty]
  | write p d => cases h; simp
  | disable p | destroy p =>
    cases h
    obtain ⟨ok, empty, hresult, hlive⟩ := removeAndReport_result p s
    simpa [hresult] using hlive
  | tick =>
    rcases exec_tick_cases h with ⟨-, rfl⟩ | ⟨-, -, rfl⟩
    · simp
    · rw [(service_frame s).1]; simp

end Sys2Proof.Machine

-- What every step keeps (spec/10_state.md rules R18, R23, R25, R28, R36; spec/70_reset_and_hazards.md rule R139), from
-- what every instruction keeps.
namespace Sys2Proof.Machine

/-! ### The invariant -/

/-- Settles O37: the reset table is `MAX_CHANNELS` empty markers, and every other clause is about fields that are 0. -/
theorem invariantHoldsAtReset : Obligations.InvariantHoldsAtReset := by
  unfold Obligations.InvariantHoldsAtReset
  obtain ⟨hsized, hprefix, hcount, hempty⟩ := registry_of_table (slots := State.reset.slots) (live := 0) (pins := [])
    (n := 4) (capacity := 4) rfl rfl rfl
  exact {
    config_valid := by decide
    slots_sized := hsized
    prefix_live := hprefix
    live_count := hcount
    untouched := fun _ => ⟨rfl, rfl, rfl, rfl, rfl⟩
    armed_run := rfl
    armed_init := fun h => Bool.noConfusion h
    empty_pin := hempty
    err_legal := Nat.zero_le 3
    sel_legal := .inl rfl
    reload_legal := by decide }

theorem BlockInv.of_exec {i : Instr} {s t : State} (hs : BlockInv s) (h : exec i s = .next t) : BlockInv t := by
  cases i with
  | nop => cases h; exact hs
  | init p f =>
    by_cases hf : FrequencyInRange s.config f
    · cases (exec_init_of_inRange hf).symm.trans h
      exact (hs.prepareChannel hf p).registerAndReport p
    · cases (execInit_of_outOfRange hf).symm.trans h
      exact hs.withResult (by decide)
  | enable p => cases h; exact hs.registerAndReport p
  | write p d => cases h; exact hs.withResult (by decide)
  | disable p | destroy p => cases h; exact hs.removeAndReport p
  | tick =>
    rcases exec_tick_cases h with ⟨-, rfl⟩ | ⟨harmed, -, rfl⟩
    · exact hs
    · exact hs.service harmed

/-- Settles O38: taking an input changes nothing the invariant reads, and every instruction, the report of an illegal word
and reset keep it. -/
theorem stepKeepsTheInvariant : Obligations.StepKeepsTheInvariant := by
  unfold Obligations.StepKeepsTheInvariant
  intro s t hs h
  obtain ⟨inputs, hcase⟩ := step_cases h
  have hs' : BlockInv { s with inputs := inputs } := hs.withResult hs.err_legal
  rcases hcase with ⟨replies, rfl⟩ | ⟨i, -, hexec⟩ | rfl | ⟨-, rfl⟩
  · exact hs.withResult hs.err_legal
  · exact hs'.of_exec hexec
  · exact hs.withResult (by decide)
  · exact hs'.resetBlock

/-! ### The parameters and the trace -/

/-- Settles O41: no instruction touches the parameters, nor do reset, an illegal word and the ports; `PARAM` reads them
alone. -/
theorem parametersNeverChange : Obligations.ParametersNeverChange := by
  unfold Obligations.ParametersNeverChange
  intro s t h
  have hconfig : t.config = s.config := by
    obtain ⟨inputs, ⟨replies, rfl⟩ | ⟨i, -, hexec⟩ | rfl | ⟨-, rfl⟩⟩ := step_cases h
    · rfl
    · exact (exec_ports hexec).1
    · rfl
    · rfl
  exact ⟨hconfig, regRead_param hconfig⟩

theorem exec_trace_extends {i : Instr} {s t : State} (h : exec i s = .next t) : ∃ events, t.trace = s.trace ++ events := by
  by_cases hi : i = .tick
  case pos =>
    subst hi
    rcases exec_tick_cases h with ⟨-, rfl⟩ | ⟨-, -, rfl⟩
    · exact ⟨[], (List.append_nil _).symm⟩
    · exact (service_events s).imp fun _ ⟨htrace, _⟩ => htrace
  case neg => exact (exec_command_effect hi h).extendsBy.imp fun _ ⟨htrace, _⟩ => htrace

/-- Settles O42: every instruction appends its events, and only reset does anything else to the trace. -/
theorem traceOnlyGrows : Obligations.TraceOnlyGrows := by
  unfold Obligations.TraceOnlyGrows
  intro s t h
  obtain ⟨inputs, ⟨replies, rfl⟩ | ⟨i, -, hexec⟩ | rfl | ⟨hrst, rfl⟩⟩ := step_cases h
  · exact .inl ⟨[], (List.append_nil _).symm⟩
  · exact .inl (exec_trace_extends (s := { s with inputs := inputs }) hexec)
  · exact .inl ⟨[], (List.append_nil _).symm⟩
  · exact .inr ⟨inputs, hrst, rfl⟩

/-! ### The shadow bits -/

theorem CommandEffect.shadowAgrees {s t : State} {i : Instr} (hs : ShadowAgrees s) (h : CommandEffect s t i) :
    ShadowAgrees t := by
  obtain ⟨harmed, hrun⟩ := hs
  cases h with
  | kept events modes timer trace =>
    obtain ⟨-, harmed', hrun', -⟩ := timerOf_eq_iff.1 timer
    rw [ShadowAgrees, trace, sourceArmed_append, sourceCounting_append, harmed', hrun', ← harmed, ← hrun]
    rcases modes with rfl | ⟨p, rfl⟩ <;> exact ⟨rfl, rfl⟩
  | started sel reload range first timer trace =>
    rw [ShadowAgrees, trace, sourceArmed_append, sourceCounting_append]
    exact ⟨congrArg Timer.armed timer, congrArg Timer.run timer⟩
  | stopped timer trace =>
    rw [ShadowAgrees, trace, sourceArmed_append, sourceCounting_append]
    exact ⟨congrArg Timer.armed timer, congrArg Timer.run timer⟩

theorem exec_shadowAgrees {i : Instr} {s t : State} (hs : ShadowAgrees s) (h : exec i s = .next t) : ShadowAgrees t := by
  by_cases hi : i = .tick
  case pos =>
    subst hi
    rcases exec_tick_cases h with ⟨-, rfl⟩ | ⟨-, -, rfl⟩
    · exact hs
    · obtain ⟨events, htrace, hdrive⟩ := service_events s
      obtain ⟨harmed, hrun⟩ := foldl_pin_events hdrive (sourceArmed s.trace) (sourceCounting s.trace)
      rw [ShadowAgrees, htrace, sourceArmed_append, sourceCounting_append, harmed, hrun, (service_frame s).1]
      exact hs
  case neg => exact (exec_command_effect hi h).shadowAgrees hs

/-- Settles O39: the effect of a command sets `ARMED` and `RUN` to what its events tell the tick source, and a TICK only
drives pins. -/
theorem stepKeepsTheShadowBits : Obligations.StepKeepsTheShadowBits := by
  unfold Obligations.StepKeepsTheShadowBits
  refine ⟨⟨rfl, rfl⟩, fun s t hs h => ?step⟩
  case step =>
    obtain ⟨inputs, ⟨replies, rfl⟩ | ⟨i, -, hexec⟩ | rfl | ⟨-, rfl⟩⟩ := step_cases h
    · exact hs
    · exact exec_shadowAgrees (s := { s with inputs := inputs }) hs hexec
    · exact hs
    · exact ⟨rfl, rfl⟩

/-! ### After a teardown -/

/-- The timer state is as it was, and no pin has been driven. -/
def StandsStill (s t : State) : Prop := timerOf t = timerOf s ∧ ExtendsBy (drivesPin · = false) s.trace t.trace

theorem StandsStill.refl (s : State) : StandsStill s s := ⟨rfl, .refl _ _⟩

theorem StandsStill.trans {s t u : State} (hst : StandsStill s t) (htu : StandsStill t u) : StandsStill s u :=
  ⟨htu.1.trans hst.1, hst.2.trans htu.2⟩

theorem StandsStill.tornDown {s t : State} (hst : StandsStill s t) (hs : TornDown s) : TornDown t := by
  obtain ⟨hinit, harmed, hrun, -⟩ := timerOf_eq_iff.1 hst.1
  rw [TornDown, hinit, harmed, hrun]
  exact hs

theorem exec_standsStill {i : Instr} {s t : State} (hs : TornDown s) (h : exec i s = .next t) : StandsStill s t := by
  obtain ⟨hinit, harmed, hrun⟩ := hs
  by_cases hi : i = .tick
  case pos =>
    subst hi
    cases (execTick_of_gated (.inl harmed)).symm.trans h
    exact .refl s
  case neg =>
    have heffect := exec_command_effect hi h
    refine ⟨?_, heffect.extendsBy⟩
    cases heffect with
    | kept _ _ timer _ => exact timer
    | started _ _ _ first _ _ => rw [hinit] at first; cases first
    | stopped timer _ => rw [timer, timerOf, harmed, hrun]

/-- What the step of an input leaves to come: the rest, and before it perhaps a held transaction or pulse (R120, R121). -/
theorem serveInput_inputs {i : Input} {s t : State} (h : serveInput i s = .next t) :
    t.inputs = s.inputs ∨ (∃ x, t.inputs = .host x :: s.inputs) ∨ t.inputs = .tickIn 1 :: s.inputs := by
  have signal {x : Signal} {u : State} (hu : runSignal x u = .next t) : t.inputs = u.inputs := by
    obtain ⟨t', hnext, hinputs⟩ := runSignal_next x u
    cases hnext.symm.trans hu
    exact hinputs
  have txn {x : HostTxn} {u : State} (hu : hostStep x u = .next t) : t.inputs = u.inputs := by
    obtain ⟨t', hnext, hinputs⟩ := hostStep_next x u
    cases hnext.symm.trans hu
    exact hinputs
  cases i with
  | host x => exact .inl (txn h)
  | tickIn v => exact .inl (signal h)
  | rst => cases h; exact .inl rfl
  | hostWithTick x => exact .inr (.inl ⟨x, signal (x := .tickIn 1) (u := holdInput (.host x) s) h⟩)
  | tickDuringHost x => exact .inr (.inr (txn (u := holdInput (.tickIn 1) s) h))
  | tickDuringTick => cases h
  | bridge offset x =>
    simp only [serveInput] at h
    split at h
    · exact .inl (txn h)
    · cases h

/-- A property of inputs that transactions and pulses have is kept by every step. -/
theorem step_inputs_forall {P : Input → Prop} (hhost : ∀ x, P (.host x)) (hpulse : P (.tickIn 1)) {s t : State}
    (hs : ∀ i ∈ s.inputs, P i) (h : step s = .next t) : ∀ i ∈ t.inputs, P i := by
  cases hinputs : s.inputs with
  | nil =>
    rw [step, hinputs] at h
    cases h
    exact hs
  | cons i rest =>
    rw [step_of_inputs hinputs] at h
    rw [hinputs] at hs
    have hrest : ∀ j ∈ rest, P j := (List.forall_mem_cons.1 hs).2
    rcases serveInput_inputs h with ht | ⟨x, ht⟩ | ht <;> rw [ht]
    · exact hrest
    · exact List.forall_mem_cons.2 ⟨hhost x, hrest⟩
    · exact List.forall_mem_cons.2 ⟨hpulse, hrest⟩

theorem step_standsStill {s t : State} (hs : TornDown s) (hrst : ∀ i ∈ s.inputs, notReset i = true)
    (h : step s = .next t) : StandsStill s t := by
  obtain ⟨inputs, ⟨replies, rfl⟩ | ⟨i, -, hexec⟩ | rfl | ⟨hinputs, -⟩⟩ := step_cases h
  · exact ⟨rfl, .refl _ _⟩
  · exact exec_standsStill (s := { s with inputs := inputs }) hs hexec
  · exact ⟨rfl, .refl _ _⟩
  · exact absurd (hrst .rst (by simp [hinputs])) (by decide)

/-- Settles O40: by induction on the number of steps; every step of a torn-down block without a reset stands still, and
leaves inputs of the same kind. -/
theorem teardownIsPermanent : Obligations.TeardownIsPermanent := by
  unfold Obligations.TeardownIsPermanent
  intro s k hs hinputs
  obtain ⟨t, hrun, hstill⟩ : ∃ t, runSteps k s = .next t ∧ StandsStill s t := by
    induction k generalizing s with
    | zero => exact ⟨s, rfl, .refl s⟩
    | succ k ih =>
      obtain ⟨t, hstep, -⟩ := step_next_of_admissible fun i hi => (hinputs i hi).1
      have hst := step_standsStill hs (fun i hi => (hinputs i hi).2) hstep
      obtain ⟨u, hrun, htu⟩ := ih t (hst.tornDown hs)
        (step_inputs_forall (P := fun i => admissible i = true ∧ notReset i = true) (fun _ => ⟨rfl, rfl⟩) ⟨rfl, rfl⟩
          hinputs hstep)
      exact ⟨u, by rw [runSteps, hstep]; exact hrun, hst.trans htu⟩
  obtain ⟨-, -, -, hsel, hreload, hcycle⟩ := timerOf_eq_iff.1 hstill.1
  obtain ⟨events, htrace, hquiet⟩ := hstill.2
  exact ⟨t, events, hrun, hstill.tornDown hs, hcycle, hsel, hreload, htrace, hquiet⟩

end Sys2Proof.Machine

-- The registry over several commands (spec/41_channel_registry.md, section 4; spec/60_exceptions.md, section 1): capacity,
-- the error codes, and what a removal leaves.
namespace Sys2Proof.Machine

/-! ### Live pins -/

theorem livePins_congr {s t : State} (h : t.slots = s.slots) : livePins t = livePins s := by
  rw [livePins, livePins, h]

theorem livePins_of_table {s : State} {pins : List Pin} {n : Nat} (h : s.slots = tableOf pins n) : livePins s = pins := by
  rw [livePins, h, tableOf_livePins]

/-- The table is full when `LIVE` is the capacity (R36). -/
theorem BlockInv.full_iff {s : State} (h : BlockInv s) :
    (∀ x ∈ s.slots, x.valid = true) ↔ s.live.toNat = s.config.maxChannels := by
  rw [h.live_count.1, ← h.slots_sized, List.countP_eq_length]

theorem registerAndReport_slots (p : Pin) (s : State) :
    (registerAndReport p s).slots = (claimSlot p s.slots).getD s.slots := by
  rw [registerAndReport, register]
  cases claimSlot p s.slots <;> rfl

theorem removeAndReport_slots (p : Pin) (s : State) :
    (removeAndReport p s).slots = (releaseSlot p s.slots).getD s.slots := by
  have hslots : (removeAndReport p s).slots = (unregister p s).state.slots := by
    simp only [removeAndReport, setResult_slots]
    split <;> rfl
  rw [hslots, unregister]
  cases releaseSlot p s.slots <;> rfl

/-- The live pins after REGISTER (R78, R79). -/
theorem BlockInv.livePins_registerAndReport {s : State} (h : BlockInv s) (p : Pin) :
    livePins (Machine.registerAndReport p s) =
      if s.live.toNat = s.config.maxChannels then livePins s else livePins s ++ [p] := by
  obtain ⟨htable, -⟩ := h.table
  have hle := h.live_count.2
  split
  · next hfull =>
    refine livePins_of_table (n := 0) ?_
    rw [registerAndReport_slots, htable, hfull, Nat.sub_self, tableOf_claim_full]
    rfl
  · next hfree =>
    obtain ⟨n, hn⟩ : ∃ n, s.config.maxChannels - s.live.toNat = n + 1 := ⟨_, (Nat.sub_one_add_one (by omega)).symm⟩
    refine livePins_of_table (n := n) ?_
    rw [registerAndReport_slots, htable, hn, tableOf_claim]
    rfl

theorem BlockInv.registerAndReport_result {s : State} (h : BlockInv s) (p : Pin) :
    (Machine.registerAndReport p s).result =
      if s.live.toNat = s.config.maxChannels then ⟨false, false, 2⟩ else ⟨true, false, 0⟩ := by
  simp only [Machine.registerAndReport_result, h.full_iff]

/-- The live pins after UNREGISTER: one p erased, if there is one (R81, R82). -/
theorem BlockInv.livePins_removeAndReport {s : State} (h : BlockInv s) (p : Pin) :
    livePins (Machine.removeAndReport p s) = (livePins s).erase p := by
  obtain ⟨htable, -⟩ := h.table
  by_cases hp : p ∈ livePins s
  case pos =>
    refine livePins_of_table (n := s.config.maxChannels - s.live.toNat + 1) ?_
    rw [removeAndReport_slots, htable, tableOf_release hp]
    rfl
  case neg =>
    rw [List.erase_of_not_mem hp]
    refine livePins_of_table (n := s.config.maxChannels - s.live.toNat) ?_
    rw [removeAndReport_slots, htable, tableOf_release_absent hp]
    rfl

/-- Settles O50: removal erases one p from the table's live pins, which leaves a slot for q at the end. -/
theorem compactionLosesNothing : Obligations.CompactionLosesNothing := by
  unfold Obligations.CompactionLosesNothing
  intro s p q i hs hp hi
  have ht := hs.removeAndReport p
  have hlive := hs.livePins_removeAndReport p
  have hcount : (removeAndReport p s).live.toNat + 1 = s.live.toNat := by
    rw [← ht.table.2, ← hs.table.2, hlive, List.length_erase_add_one hp]
  have hfree : (removeAndReport p s).live.toNat ≠ (removeAndReport p s).config.maxChannels := by
    have := hs.live_count.2
    rw [(removeAndReport_ports p s).1]
    omega
  refine ⟨removeAndReport p s, registerAndReport q (removeAndReport p s), exec_remove hi s, exec_enable q _, hlive, ?_, ?_,
    hcount⟩
  · rw [ht.livePins_registerAndReport, if_neg hfree, hlive]
  · rw [ht.registerAndReport_result, if_neg hfree]

/-! ### A run of ENABLEs -/

/-- The input that writes the word of ENABLE p to `CMD`. -/
def enableInput (p : Pin) : Input := .host (.write 0 (BitVec.ofNat 32 (0x20000000 + p.toNat * 65536)))

theorem step_enableInput {s : State} {p : Pin} {rest : List Input} (h : s.inputs = enableInput p :: rest) :
    step s = .next (registerAndReport p { s with inputs := rest }) := by
  have hdecode : decode (.cmdWord (BitVec.ofNat 32 (0x20000000 + p.toNat * 65536))) = .ok (.enable p) :=
    decode_cmdWord_eq_ok_iff.2 (congrArg Signal.cmdWord (packFields_eq_ofNat 2 p 0))
  rw [step_cmdWord h, runSignal_of_decode hdecode, exec_enable]

theorem BlockInv.length_livePins_le {s : State} (h : BlockInv s) : (livePins s).length ≤ s.config.maxChannels :=
  h.table.2 ▸ h.live_count.2

/-- REGISTER keeps the first `MAX_CHANNELS` of the pins it is given, and reports whether the last was one of them. -/
theorem BlockInv.registerAndReport_eq_take {s : State} (h : BlockInv s) (p : Pin) :
    livePins (Machine.registerAndReport p s) = (livePins s ++ [p]).take s.config.maxChannels ∧
      (Machine.registerAndReport p s).result =
        if (livePins s).length + 1 ≤ s.config.maxChannels then ⟨true, false, 0⟩ else ⟨false, false, 2⟩ := by
  have hlen := h.table.2
  have hle := h.live_count.2
  rw [h.livePins_registerAndReport, h.registerAndReport_result]
  by_cases hfull : s.live.toNat = s.config.maxChannels
  · rw [if_pos hfull, if_pos hfull, if_neg (by omega), List.take_left' (hlen.trans hfull)]
    exact ⟨rfl, rfl⟩
  · rw [if_neg hfull, if_neg hfull, if_pos (by omega),
      List.take_of_length_le (by rw [List.length_append, List.length_singleton]; omega)]
    exact ⟨rfl, rfl⟩

/-- One ENABLE of the run: the table keeps the first `MAX_CHANNELS` of the pins it is given, and the report says whether
the last was one of them (R86). -/
theorem BlockInv.step_enableInput {s : State} (hs : BlockInv s) {p : Pin} {rest : List Input}
    (h : s.inputs = enableInput p :: rest) :
    ∃ t, step s = .next t ∧ BlockInv t ∧ t.config = s.config ∧ t.inputs = rest ∧
      livePins t = (livePins s ++ [p]).take s.config.maxChannels ∧
      t.result =
        if (livePins s).length + 1 ≤ s.config.maxChannels then ⟨true, false, 0⟩ else ⟨false, false, 2⟩ := by
  have hs' : BlockInv { s with inputs := rest } := hs.withResult hs.err_legal
  obtain ⟨hconfig, hinputs, -⟩ := registerAndReport_ports p { s with inputs := rest }
  obtain ⟨hlive, hresult⟩ := hs'.registerAndReport_eq_take p
  exact ⟨_, Machine.step_enableInput h, hs'.registerAndReport p, hconfig, hinputs, hlive, hresult⟩

theorem take_append_take (n : Nat) (a b : List Pin) : ((a.take n) ++ b).take n = (a ++ b).take n := by
  simp only [List.take_append, List.take_take, min_self, List.length_take]
  congr 2
  omega

/-- A run of ENABLEs from any table of the invariant. -/
theorem BlockInv.runSteps_enables {pins : List Pin} {s : State} {rest : List Input} (hs : BlockInv s)
    (hinputs : s.inputs = pins.map enableInput ++ rest) :
    ∃ t, runSteps pins.length s = .next t ∧ livePins t = (livePins s ++ pins).take s.config.maxChannels ∧
      (pins ≠ [] → t.result =
        if (livePins s).length + pins.length ≤ s.config.maxChannels then ⟨true, false, 0⟩ else ⟨false, false, 2⟩) := by
  induction pins generalizing s with
  | nil =>
    exact ⟨s, rfl, by rw [List.append_nil, List.take_of_length_le hs.length_livePins_le], fun h => absurd rfl h⟩
  | cons p ps ih =>
    obtain ⟨t, hstep, ht, hconfig, hrest, hlive, hresult⟩ := hs.step_enableInput hinputs
    obtain ⟨u, hrun, huLive, huResult⟩ := ih ht hrest
    refine ⟨u, by rw [List.length_cons, runSteps, hstep]; exact hrun, ?live, fun _ => ?result⟩
    case live => rw [huLive, hconfig, hlive, take_append_take, List.append_assoc, List.singleton_append]
    case result =>
      by_cases hps : ps = []
      · subst hps
        cases hrun
        exact hresult
      · have hpos := List.length_pos_iff.2 hps
        rw [huResult hps, hconfig, hlive, List.length_take, List.length_append, List.length_singleton, List.length_cons]
        exact if_congr (by omega) rfl rfl

/-- Settles O49: a run of ENABLEs, from the empty table. -/
theorem enablesSucceedUpToCapacity : Obligations.EnablesSucceedUpToCapacity := by
  unfold Obligations.EnablesSucceedUpToCapacity
  intro s pins rest hs hlive hinputs
  obtain ⟨t, hrun, htLive, hresult⟩ := hs.runSteps_enables hinputs
  have hempty : livePins s = [] := List.length_eq_zero_iff.1 (by rw [hs.table.2, hlive]; rfl)
  rw [hempty] at htLive hresult
  refine ⟨t, hrun, htLive, fun hpins => ?result⟩
  case result =>
    rw [hresult hpins, List.length_nil, Nat.zero_add]
    by_cases hfits : pins.length ≤ s.config.maxChannels
    · simp [hfits]
    · simp [hfits]

/-! ### The error codes -/

/-- The code of R113 that a word written to `CMD` reports, 0 being none. -/
def reportedCode (s : State) : Except Illegal Instr → BitVec 4
  | .error _ => 3
  | .ok (.init _ f) =>
    if FrequencyInRange s.config f then if s.live.toNat = s.config.maxChannels then 2 else 0 else 1
  | .ok (.enable _) => if s.live.toNat = s.config.maxChannels then 2 else 0
  | .ok _ => 0

theorem BlockInv.exec_result {i : Instr} {s t : State} (hs : BlockInv s) (hnop : i ≠ .nop) (htick : i ≠ .tick)
    (h : exec i s = .next t) :
    t.result.err = reportedCode s (.ok i) ∧ (t.result.err ≠ 0 → t.result.ok = false ∧ t.result.empty = false) := by
  cases i with
  | nop => exact absurd rfl hnop
  | tick => exact absurd rfl htick
  | init p f =>
    rw [exec_init_result h]
    simp only [reportedCode, hs.full_iff]
    split_ifs <;> simp
  | enable p =>
    cases h
    rw [hs.registerAndReport_result]
    simp only [reportedCode]
    split_ifs <;> simp
  | write p d => cases h; simp [reportedCode]
  | disable p | destroy p =>
    cases h
    obtain ⟨ok, empty, hresult, -⟩ := removeAndReport_result p s
    simp [hresult, reportedCode]

theorem BlockInv.regWrite_result {w : Word} {s t : State} (hs : BlockInv s) (hnop : decode (.cmdWord w) ≠ .ok .nop)
    (h : regWrite 0 w s = .next t) :
    t.result.err = reportedCode s (decode (.cmdWord w)) ∧
      (t.result.err ≠ 0 → t.result.ok = false ∧ t.result.empty = false) := by
  have h : runSignal (.cmdWord w) s = .next t := h
  cases hd : decode (.cmdWord w) with
  | ok i =>
    rw [runSignal_of_decode hd] at h
    exact hs.exec_result (by rintro rfl; exact hnop hd) (commandWord_of_decode hd).1 h
  | error e =>
    rw [runSignal_of_illegal hd] at h
    cases h
    exact ⟨rfl, fun _ => ⟨rfl, rfl⟩⟩

theorem reportedCode_eq_three_iff {s : State} {x : Except Illegal Instr} : reportedCode s x = 3 ↔ ∃ e, x = .error e := by
  rcases x with e | i
  · simp [reportedCode]
  · cases i with
    | init p f => simp only [reportedCode]; split_ifs <;> simp
    | enable p => simp only [reportedCode]; split_ifs <;> simp
    | _ => simp [reportedCode]

theorem reportedCode_eq_one_iff {s : State} {x : Except Illegal Instr} :
    reportedCode s x = 1 ↔ ∃ p f, x = .ok (.init p f) ∧ ¬FrequencyInRange s.config f := by
  rcases x with e | i
  · simp [reportedCode]
  · cases i with
    | init p f => simp only [reportedCode]; split_ifs with hf <;> simpa using hf
    | enable p => simp only [reportedCode]; split_ifs <;> simp
    | _ => simp [reportedCode]

theorem reportedCode_eq_two_iff {s : State} {x : Except Illegal Instr} :
    reportedCode s x = 2 ↔ s.live.toNat = s.config.maxChannels ∧
      ((∃ p, x = .ok (.enable p)) ∨ ∃ p f, x = .ok (.init p f) ∧ FrequencyInRange s.config f) := by
  rcases x with e | i
  · simp [reportedCode]
  · cases i with
    | init p f =>
      simp only [reportedCode]
      split_ifs with hf hfull
      · simpa [hfull] using hf
      · simp [hfull]
      · simp [hf]
    | enable p => simp only [reportedCode]; split_ifs with hfull <;> simp [hfull]
    | _ => simp [reportedCode]

/-- Settles O48: the code reported is that of what the word decodes to, and the four values are told apart. -/
theorem errorCodesAreComplete : Obligations.ErrorCodesAreComplete := by
  unfold Obligations.ErrorCodesAreComplete
  intro s t w hs hnop h
  obtain ⟨hcode, hflags⟩ := hs.regWrite_result hnop h
  rw [hcode] at hflags ⊢
  exact ⟨reportedCode_eq_three_iff, reportedCode_eq_one_iff, reportedCode_eq_two_iff, hflags⟩

end Sys2Proof.Machine

-- One tick (spec/42_cycle_servicer.md rule R95) and the events that leave a pin alone.
namespace Sys2Proof.Machine

/-! ### The events of a serviced tick -/

/-- The events of one serviced tick, in slot order: the levels of the boundary (R91), or the falling edges (R92). -/
def serviceEvents (s : State) : List Event :=
  if s.cycle = 0 then (dispatchPins s.slots).map (fun q => Event.setPinLevel q (decide ((dutyAt s q).p ≠ 0)))
  else fallingEdges s

theorem service_trace (s : State) : (service s).trace = s.trace ++ serviceEvents s := by
  rw [serviceEvents]
  split
  · next hcycle => exact service_trace_at_boundary hcycle
  · next hcycle => exact service_trace_off_boundary hcycle

theorem service_cycle (s : State) : (service s).cycle = s.cycle + 1 := by rw [(service_frame s).1]

theorem service_slots (s : State) : (service s).slots = s.slots := by rw [(service_frame s).1]

theorem service_armed (s : State) : (service s).armed = s.armed := by rw [(service_frame s).1]

theorem service_inputs (s : State) : (service s).inputs = s.inputs := by rw [(service_frame s).1]

theorem serviceEvents_sublist (s : State) :
    ∃ level : Pin → Bool,
      (serviceEvents s).Sublist ((dispatchPins s.slots).map (fun q => Event.setPinLevel q (level q))) := by
  rw [serviceEvents]
  split
  · exact ⟨_, List.Sublist.refl _⟩
  · exact ⟨fun _ => false, List.filter_sublist.map _⟩

/-- Settles O35: a gated TICK emits nothing; the events of a serviced one are those of some of the live slots, in order. -/
theorem tickEmitsAtMostOneEventPerSlot : Obligations.TickEmitsAtMostOneEventPerSlot := by
  unfold Obligations.TickEmitsAtMostOneEventPerSlot
  intro s hs
  obtain ⟨t, ht⟩ := exec_next .tick s
  obtain ⟨events, level, htrace, hsub⟩ : ∃ events, ∃ level : Pin → Bool, t.trace = s.trace ++ events ∧
      events.Sublist ((livePins s).map (fun q => Event.setPinLevel q (level q))) := by
    rcases exec_tick_cases ht with ⟨-, rfl⟩ | ⟨-, -, rfl⟩
    · exact ⟨[], fun _ => false, (List.append_nil _).symm, List.nil_sublist _⟩
    · obtain ⟨level, hsub⟩ := serviceEvents_sublist s
      exact ⟨serviceEvents s, level, service_trace s, hs.dispatchPins_eq ▸ hsub⟩
  refine ⟨t, events, level, ht, htrace, hsub, ?_, hs.live_count.2⟩
  simpa [hs.table.2] using hsub.length_le

theorem dispatchPins_perm {slots slots' : List Slot}
    (h : (slots'.takeWhile Slot.valid).Perm (slots.takeWhile Slot.valid)) :
    (dispatchPins slots').Perm (dispatchPins slots) := by
  rw [dispatchPins_eq, dispatchPins_eq]
  exact h.map _

theorem serviceEvents_perm {s : State} {slots' : List Slot} (h : (dispatchPins slots').Perm (dispatchPins s.slots)) :
    (serviceEvents { s with slots := slots' }).Perm (serviceEvents s) := by
  by_cases hcycle : s.cycle = 0
  · rw [serviceEvents, serviceEvents, if_pos hcycle, if_pos hcycle]
    exact h.map _
  · rw [serviceEvents, serviceEvents, if_neg hcycle, if_neg hcycle]
    exact (h.filter _).map _

/-- The duty pairs after a serviced tick depend on which slots are visited, not on their order. -/
theorem service_duty_perm {s : State} {slots' : List Slot} (h : (dispatchPins slots').Perm (dispatchPins s.slots)) :
    (service { s with slots := slots' }).duty = (service s).duty := by
  refine duty_ext fun q => ?_
  have hq := service_duty { s with slots := slots' } q
  simp only [h.mem_iff] at hq
  exact hq.trans (service_duty s q).symm

/-- Settles O36: what a serviced tick emits and commits is a map over the visited slots and a test of membership. -/
theorem tickIgnoresSlotOrder : Obligations.TickIgnoresSlotOrder := by
  unfold Obligations.TickIgnoresSlotOrder
  intro s slots' hperm
  have hpins := dispatchPins_perm hperm
  rcases execTick_cases s with ⟨hgate, htick⟩ | ⟨harmed, hrun, htick⟩
  · exact ⟨s, { s with slots := slots' }, [], [], htick, execTick_of_gated hgate, (List.append_nil _).symm,
      (List.append_nil _).symm, .refl _, rfl, rfl⟩
  · exact ⟨service s, service { s with slots := slots' }, serviceEvents s, serviceEvents { s with slots := slots' }, htick,
      execTick_of_armed harmed hrun, service_trace _, service_trace _, serviceEvents_perm hpins,
      service_duty_perm hpins, (service_cycle _).trans (service_cycle s).symm⟩

/-! ### Events that leave a pin alone -/

theorem drives_eq_false_of_drivesPin {e : Event} (h : drivesPin e = false) (p : Pin) : drives p e = false := by
  cases e with
  | setPinLevel q level => cases h
  | _ => simp [drives]

theorem drives_setPinLevel (p q : Pin) (level : Bool) : drives p (.setPinLevel q level) = decide (q = p) := by
  cases level <;> simp [drives]

theorem levelAfter_of_not_drives {p : Pin} {e : Event} (h : drives p e = false) (known : Option Bool) :
    levelAfter p known e = known := by
  cases e with
  | setPinLevel q level =>
    rw [drives_setPinLevel, decide_eq_false_iff_not] at h
    exact if_neg h
  | _ => rfl

/-- The second trace continues the first by events that do not drive the pin. -/
abbrev Undriven (p : Pin) : List Event → List Event → Prop := ExtendsBy (drives p · = false)

theorem Undriven.countP {p : Pin} {a b : List Event} (h : Undriven p a b) :
    b.countP (drives p) = a.countP (drives p) := by
  obtain ⟨events, rfl, hevents⟩ := h
  have hnone : events.countP (drives p) = 0 := List.countP_eq_zero.2 (by simpa using hevents)
  rw [List.countP_append, hnone, Nat.add_zero]

theorem Undriven.pinLevel {p : Pin} {a b : List Event} (h : Undriven p a b) : pinLevel b p = pinLevel a p := by
  obtain ⟨events, rfl, hevents⟩ := h
  rw [pinLevel_append]
  generalize Machine.pinLevel a p = known
  induction events with
  | nil => rfl
  | cons e es ih =>
    obtain ⟨he, hes⟩ := List.forall_mem_cons.1 hevents
    rw [List.foldl_cons, levelAfter_of_not_drives he, ih hes]

theorem exec_command_undriven {i : Instr} {s t : State} (hi : i ≠ .tick) (h : exec i s = .next t) (p : Pin) :
    Undriven p s.trace t.trace :=
  (exec_command_effect hi h).extendsBy.mono fun _ he => drives_eq_false_of_drivesPin he p

/-- Settles O51: a removal is a command, whose events leave every pin alone. -/
theorem removedPinsKeepTheirLevel : Obligations.RemovedPinsKeepTheirLevel := by
  unfold Obligations.RemovedPinsKeepTheirLevel
  intro s t p q i hi h
  have htick : i ≠ .tick := by rcases hi with rfl | rfl <;> nofun
  exact (exec_command_undriven htick h q).pinLevel

end Sys2Proof.Machine

-- The waveform (spec/42_cycle_servicer.md rules R96 to R99): how a cycle starts and ends, what every step inside it keeps,
-- whole cycles of uninterrupted ticks, and a pin registered inside a cycle.
namespace Sys2Proof.Machine

theorem livePins_service (s : State) : livePins (service s) = livePins s := livePins_congr (service_slots s)

/-! ### One tick of the cycle -/

/-- The boundary tick puts a live pin on the waveform of its pending duty (R91). -/
theorem BlockInv.onWaveform_service {s : State} {p : Pin} {d : Duty} (hs : BlockInv s) (hcycle : s.cycle = 0)
    (hp : p ∈ livePins s) (hd : (dutyAt s p).p = d) :
    OnWaveform p d (s.trace.countP (drives p)) (Machine.service s) := by
  have hvisited : p ∈ dispatchPins s.slots := hs.dispatchPins_eq ▸ hp
  have hnext : (Machine.service s).cycle = 1 := by rw [service_cycle, hcycle]; rfl
  have hpos : d = 0 ∨ d = 255 ∨ (1 : BitVec 8).toNat - 1 < d.toNat := by bv_omega
  have hhigh : d ≠ 0 ↔ d = 255 ∨ (1 : BitVec 8).toNat - 1 < d.toNat := by bv_omega
  exact {
    mid_cycle := by rw [hnext]; decide
    live := livePins_service s ▸ hp
    committed := by rw [service_duty, if_pos ⟨hcycle, hvisited⟩, hd]
    level := by
      rw [service_level hvisited, if_pos hcycle, hnext, hd]
      simp only [hhigh]
    events := by
      rw [service_count, if_pos hcycle, hs.dispatchPins_eq, livePins_service, hnext, if_pos hpos, Nat.mul_one] }

/-- A tick inside the cycle: the level and the number of events it leaves are those of the tick with number `CYCLE`
(R92, R93, R96, R97). -/
theorem OnWaveform.service {s : State} {p : Pin} {d : Duty} {base : Nat} (h : OnWaveform p d base s) (hs : BlockInv s) :
    (dutyAt (Machine.service s) p).c = d ∧
      pinLevel (Machine.service s).trace p = some (decide (d = 255 ∨ s.cycle.toNat < d.toNat)) ∧
      (Machine.service s).trace.countP (drives p) =
        base + (livePins s).count p * (if d = 0 ∨ d = 255 ∨ s.cycle.toNat < d.toNat then 1 else 2) := by
  obtain ⟨hmid, hlive, hcommitted, hlevel, hevents⟩ := h
  have hvisited : p ∈ dispatchPins s.slots := hs.dispatchPins_eq ▸ hlive
  refine ⟨by rw [service_duty, if_neg fun hc => hmid hc.1, hcommitted], ?_, ?_⟩
  · rw [service_level hvisited, if_neg hmid, hcommitted, hlevel]
    by_cases hfall : s.cycle = d ∧ d ≠ 255
    · rw [if_pos hfall]
      have hafter : ¬(d = 255 ∨ s.cycle.toNat < d.toNat) := by bv_omega
      rw [decide_eq_false hafter]
    · rw [if_neg hfall]
      have hsame : (d = 255 ∨ s.cycle.toNat - 1 < d.toNat) ↔ (d = 255 ∨ s.cycle.toNat < d.toNat) := by bv_omega
      simp only [hsame]
  · rw [service_count, if_neg hmid, hcommitted, hevents, hs.dispatchPins_eq]
    by_cases hfall : s.cycle = d ∧ d ≠ 255
    · have hbefore : d = 0 ∨ d = 255 ∨ s.cycle.toNat - 1 < d.toNat := by bv_omega
      have hafter : ¬(d = 0 ∨ d = 255 ∨ s.cycle.toNat < d.toNat) := by bv_omega
      rw [if_pos hfall, if_pos hbefore, if_neg hafter]
      omega
    · have hsame : (d = 0 ∨ d = 255 ∨ s.cycle.toNat - 1 < d.toNat) ↔ (d = 0 ∨ d = 255 ∨ s.cycle.toNat < d.toNat) := by
        bv_omega
      rw [if_neg hfall, Nat.add_zero]
      simp only [hsame]

/-- A tick before the last keeps the pin on its waveform. -/
theorem OnWaveform.onWaveform_service {s : State} {p : Pin} {d : Duty} {base : Nat} (h : OnWaveform p d base s)
    (hs : BlockInv s) (hlast : s.cycle ≠ 255) : OnWaveform p d base (Machine.service s) := by
  obtain ⟨hcommitted, hlevel, hevents⟩ := h.service hs
  have hnext : (Machine.service s).cycle.toNat - 1 = s.cycle.toNat := by rw [service_cycle]; bv_omega
  exact {
    mid_cycle := by rw [service_cycle]; bv_omega
    live := livePins_service s ▸ h.live
    committed := hcommitted
    level := by rw [hnext]; exact hlevel
    events := by rw [hnext, livePins_service]; exact hevents }

/-- Settles O57: the tick at `CYCLE` = 0 commits and drives the pin; that at 255 is past every falling edge. -/
theorem waveformStartsAndEndsWithTheCycle : Obligations.WaveformStartsAndEndsWithTheCycle := by
  unfold Obligations.WaveformStartsAndEndsWithTheCycle
  intro s p d hs harmed hp
  have htick : exec .tick s = .next (service s) := execTick_of_armed harmed (hs.armed_run ▸ harmed)
  refine ⟨fun hcycle hd => ⟨service s, htick, hs.onWaveform_service hcycle hp hd⟩, fun base hcycle hwave => ?last⟩
  case last =>
    obtain ⟨-, hlevel, hevents⟩ := hwave.service hs
    have hpast : ¬s.cycle.toNat < d.toNat := by bv_omega
    refine ⟨service s, htick, by rw [service_cycle, hcycle]; rfl, ?_, ?_⟩
    · simpa only [hpast, or_false] using hlevel
    · simpa only [hpast, or_false] using hevents

/-! ### Every other step of the cycle -/

/-- What keeps the cycle, the slots of a pin, its committed duty and its level keeps the pin on its waveform. -/
theorem OnWaveform.of_undriven {s t : State} {p : Pin} {d : Duty} {base : Nat} (h : OnWaveform p d base s)
    (hcycle : t.cycle = s.cycle) (hslots : (livePins t).count p = (livePins s).count p)
    (hcommitted : (dutyAt t p).c = (dutyAt s p).c) (htrace : Undriven p s.trace t.trace) : OnWaveform p d base t where
  mid_cycle := hcycle ▸ h.mid_cycle
  live := List.count_pos_iff.1 (hslots ▸ List.count_pos_iff.2 h.live)
  committed := hcommitted.trans h.committed
  level := by rw [htrace.pinLevel, hcycle, h.level]
  events := by rw [htrace.countP, hcycle, hslots, h.events]

/-- REGISTER of another pin, or on a full table, leaves the slots and the duty pair of a pin. -/
theorem BlockInv.registerAndReport_keeps_pin {s : State} {p q : Pin} (hs : BlockInv s)
    (h : ¬(q = p ∧ s.live.toNat < s.config.maxChannels)) :
    dutyAt (Machine.registerAndReport q s) p = dutyAt s p ∧
      (livePins (Machine.registerAndReport q s)).count p = (livePins s).count p := by
  have hle := hs.live_count.2
  rw [hs.livePins_registerAndReport]
  by_cases hfull : s.live.toNat = s.config.maxChannels
  case pos =>
    rw [if_pos hfull, registerAndReport_of_full (hs.full_iff.2 hfull)]
    exact ⟨rfl, rfl⟩
  case neg =>
    have hq : q ≠ p := fun hq => h ⟨hq, by omega⟩
    refine ⟨(registerAndReport_duty q s p).resolve_right fun hc => hq hc.1.symm, ?_⟩
    rw [if_neg hfull, List.count_append, List.count_singleton, if_neg (by simpa using hq), Nat.add_zero]

/-- A command that neither registers nor unregisters a pin leaves its slots and its committed duty. -/
theorem BlockInv.exec_keeps_pin {i : Instr} {s t : State} {p : Pin} (hs : BlockInv s) (hi : i ≠ .tick)
    (hslots : ¬reslots p s i) (h : Machine.exec i s = .next t) :
    (dutyAt t p).c = (dutyAt s p).c ∧ (livePins t).count p = (livePins s).count p := by
  cases i with
  | tick => exact absurd rfl hi
  | nop => cases h; exact ⟨rfl, rfl⟩
  | init q f =>
    by_cases hf : FrequencyInRange s.config f
    · cases (exec_init_of_inRange hf).symm.trans h
      obtain ⟨hslotsPrep, hlivePrep, hdutyPrep, -, hconfigPrep, -⟩ := prepareChannel_frame q f s
      obtain ⟨hduty, hcount⟩ := (hs.prepareChannel hf q).registerAndReport_keeps_pin (p := p) (q := q)
        (by rw [hlivePrep, hconfigPrep]; exact fun hc => hslots ⟨hc.1, hf, hc.2⟩)
      rw [hduty, hcount, livePins_congr hslotsPrep, dutyAt_congr hdutyPrep]
      exact ⟨rfl, rfl⟩
    · cases (execInit_of_outOfRange hf).symm.trans h
      exact ⟨rfl, rfl⟩
  | enable q =>
    cases h
    obtain ⟨hduty, hcount⟩ := hs.registerAndReport_keeps_pin hslots
    exact ⟨congrArg DutyPair.c hduty, hcount⟩
  | write q e => cases h; exact ⟨committed_written q p e s, rfl⟩
  | disable q | destroy q =>
    cases h
    rw [dutyAt_congr (removeAndReport_frame q s).1, hs.livePins_removeAndReport, List.count_erase_of_ne (Ne.symm hslots)]
    exact ⟨rfl, rfl⟩

/-- Only a first INIT restarts the cycle (R73, R140). -/
theorem exec_command_cycle {i : Instr} {s t : State} (hi : i ≠ .tick) (hfirst : s.init = true ∨ ∀ p f, i ≠ .init p f)
    (h : exec i s = .next t) : t.cycle = s.cycle := by
  cases exec_command_effect hi h with
  | kept _ _ timer _ => exact congrArg Timer.cycle timer
  | started _ _ _ first _ _ =>
    rcases hfirst with hinit | hne
    · rw [hinit] at first; cases first
    · exact absurd rfl (hne _ _)
  | stopped timer _ => exact congrArg Timer.cycle timer

theorem BlockInv.init_of_mid_cycle {s : State} (hs : BlockInv s) (hmid : s.cycle ≠ 0) : s.init = true := by
  cases hinit : s.init with
  | true => rfl
  | false => exact absurd (hs.untouched hinit).2.2.2.2 hmid

theorem OnWaveform.of_exec {i : Instr} {s t : State} {p : Pin} {d : Duty} {base : Nat} (h : OnWaveform p d base s)
    (hs : BlockInv s) (hslots : ¬reslots p s i) (hlast : ¬(i = .tick ∧ s.armed = true ∧ s.cycle = 255))
    (hexec : exec i s = .next t) : OnWaveform p d base t := by
  by_cases hi : i = .tick
  case pos =>
    subst hi
    rcases exec_tick_cases hexec with ⟨-, rfl⟩ | ⟨harmed, -, rfl⟩
    · exact h
    · exact h.onWaveform_service hs fun hcycle => hlast ⟨rfl, harmed, hcycle⟩
  case neg =>
    obtain ⟨hcommitted, hcount⟩ := hs.exec_keeps_pin hi hslots hexec
    exact h.of_undriven (exec_command_cycle hi (.inl (hs.init_of_mid_cycle h.mid_cycle)) hexec) hcount hcommitted
      (exec_command_undriven hi hexec p)

/-- Settles O56: taking an input and the report of an illegal word change nothing the waveform is about; an instruction
keeps it by `OnWaveform.of_exec`. -/
theorem stepKeepsTheWaveform : Obligations.StepKeepsTheWaveform := by
  unfold Obligations.StepKeepsTheWaveform
  intro s t p d base hs h hstep hrst hslots hlast
  obtain ⟨inputs, ⟨replies, rfl⟩ | ⟨i, hi, hexec⟩ | rfl | ⟨hinputs, -⟩⟩ := step_cases hstep
  · exact h.of_undriven rfl rfl rfl (.refl _ _)
  · have hs' : BlockInv { s with inputs := inputs } := hs.withResult hs.err_legal
    have h' : OnWaveform p d base { s with inputs := inputs } := h.of_undriven rfl rfl rfl (.refl _ _)
    exact h'.of_exec hs' (hslots i hi) (fun ⟨htick, hc⟩ => hlast ⟨htick ▸ hi, hc⟩) hexec
  · exact h.of_undriven rfl rfl rfl (.refl _ _)
  · exact absurd (by rw [hinputs]; rfl) hrst

/-! ### Uninterrupted ticks -/

/-- After k ticks of a cycle that began in s: the state is inside the cycle, on the waveform, with the other ticks still to
come. -/
structure AfterTicks (p : Pin) (d : Duty) (s : State) (rest : List Input) (k : Nat) (t : State) : Prop where
  inv : BlockInv t
  armed : t.armed = true
  cycle : t.cycle.toNat = k
  pins : livePins t = livePins s
  inputs : t.inputs = List.replicate (256 - k) (.tickIn 1) ++ rest
  wave : OnWaveform p d (s.trace.countP (drives p)) t

theorem step_tick_armed {s : State} {rest : List Input} (hs : BlockInv s) (harmed : s.armed = true)
    (hinputs : s.inputs = .tickIn 1 :: rest) :
    step s = .next (service { s with inputs := rest }) ∧ BlockInv { s with inputs := rest } :=
  ⟨(step_tick hinputs).trans (execTick_of_armed harmed (hs.armed_run ▸ harmed)), hs.withResult hs.err_legal⟩

theorem afterTicks_one {s : State} {p : Pin} {d : Duty} {rest : List Input} (hs : BlockInv s) (harmed : s.armed = true)
    (hcycle : s.cycle = 0) (hp : p ∈ livePins s) (hd : (dutyAt s p).p = d)
    (hinputs : s.inputs = List.replicate 256 (.tickIn 1) ++ rest) :
    ∃ t, step s = .next t ∧ AfterTicks p d s rest 1 t := by
  obtain ⟨hstep, hs'⟩ := step_tick_armed hs harmed hinputs
  exact ⟨_, hstep, {
    inv := hs'.service harmed
    armed := (service_armed _).trans harmed
    cycle := by rw [service_cycle, hcycle]; rfl
    pins := livePins_service _
    inputs := service_inputs _
    wave := hs'.onWaveform_service hcycle hp hd }⟩

/-- One more tick, which may be the last: what the pin's level and events are after it (R96, R97). -/
theorem AfterTicks.step {p : Pin} {d : Duty} {s t : State} {rest : List Input} {k : Nat} (h : AfterTicks p d s rest k t) :
    ∃ u, Machine.step t = .next u ∧ (dutyAt u p).c = d ∧ pinLevel u.trace p = some (decide (d = 255 ∨ k < d.toNat)) ∧
      u.trace.countP (drives p) = s.trace.countP (drives p) +
        (livePins s).count p * (if d = 0 ∨ d = 255 ∨ k < d.toNat then 1 else 2) ∧
      (k < 255 → AfterTicks p d s rest (k + 1) u) := by
  obtain ⟨ht, harmed, hcycle, hpins, hinputs, hwave⟩ := h
  have hk : 256 - k = 255 - k + 1 := by have := t.cycle.isLt; omega
  rw [hk, List.replicate_succ, List.cons_append] at hinputs
  obtain ⟨hstep, ht'⟩ := step_tick_armed ht harmed hinputs
  have hwave' := hwave.of_undriven (t := { t with inputs := List.replicate (255 - k) (.tickIn 1) ++ rest }) rfl rfl rfl
    (.refl _ _)
  obtain ⟨hcommitted, hlevel, hevents⟩ := hwave'.service ht'
  rw [hcycle] at hlevel hevents
  refine ⟨_, hstep, hcommitted, hlevel, hpins ▸ hevents, fun hlast => ?next⟩
  case next => exact {
    inv := ht'.service harmed
    armed := (service_armed _).trans harmed
    cycle := by rw [service_cycle]; bv_omega
    pins := (livePins_service _).trans hpins
    inputs := (service_inputs _).trans (by rw [show 256 - (k + 1) = 255 - k by omega])
    wave := hwave'.onWaveform_service ht' (by bv_omega) }

theorem runSteps_afterTicks {s : State} {p : Pin} {d : Duty} {rest : List Input} (hs : BlockInv s)
    (harmed : s.armed = true) (hcycle : s.cycle = 0) (hp : p ∈ livePins s) (hd : (dutyAt s p).p = d)
    (hinputs : s.inputs = List.replicate 256 (.tickIn 1) ++ rest) {k : Nat} (hk : k < 255) :
    ∃ t, runSteps (k + 1) s = .next t ∧ AfterTicks p d s rest (k + 1) t := by
  induction k with
  | zero =>
    obtain ⟨t, hstep, ht⟩ := afterTicks_one hs harmed hcycle hp hd hinputs
    exact ⟨t, by rw [runSteps, hstep]; rfl, ht⟩
  | succ k ih =>
    obtain ⟨t, hrun, ht⟩ := ih (by omega)
    obtain ⟨u, hstep, -, -, -, hu⟩ := ht.step
    exact ⟨u, by rw [runSteps_succ, hrun]; exact hstep, hu hk⟩

/-- A cycle of uninterrupted ticks: after k of them, the whole cycle included, the pin is as tick k − 1 leaves it. -/
theorem runSteps_cycle {s : State} {p : Pin} {d : Duty} {rest : List Input} (hs : BlockInv s)
    (harmed : s.armed = true) (hcycle : s.cycle = 0) (hp : p ∈ livePins s) (hd : (dutyAt s p).p = d)
    (hinputs : s.inputs = List.replicate 256 (.tickIn 1) ++ rest) {k : Nat} (hpos : 1 ≤ k) (hk : k ≤ 256) :
    ∃ t, runSteps k s = .next t ∧ (dutyAt t p).c = d ∧ pinLevel t.trace p = some (decide (d = 255 ∨ k - 1 < d.toNat)) ∧
      t.trace.countP (drives p) = s.trace.countP (drives p) +
        (livePins s).count p * (if d = 0 ∨ d = 255 ∨ k - 1 < d.toNat then 1 else 2) := by
  match k, hpos with
  | 1, _ =>
    obtain ⟨t, hrun, ht⟩ := runSteps_afterTicks hs harmed hcycle hp hd hinputs (k := 0) (by decide)
    obtain ⟨-, -, hcommitted, hlevel, hevents⟩ := ht.wave
    rw [ht.cycle] at hlevel hevents
    exact ⟨t, hrun, hcommitted, hlevel, ht.pins ▸ hevents⟩
  | k + 2, _ =>
    obtain ⟨t, hrun, ht⟩ := runSteps_afterTicks hs harmed hcycle hp hd hinputs (k := k) (by omega)
    obtain ⟨u, hstep, hcommitted, hlevel, hevents, -⟩ := ht.step
    exact ⟨u, by rw [runSteps_succ, hrun]; exact hstep, hcommitted, hlevel, hevents⟩

/-- Settles O52: at a duty that is neither 0 nor 255 only the comparison with the tick's number is left. -/
theorem middleDutyWaveform : Obligations.MiddleDutyWaveform := by
  unfold Obligations.MiddleDutyWaveform
  intro s p d k rest hs harmed hcycle hp hd hlow hhigh hinputs hpos hk
  obtain ⟨t, hrun, hcommitted, hlevel, hevents⟩ := runSteps_cycle hs harmed hcycle hp hd hinputs hpos hk
  have h0 : d ≠ 0 := by bv_omega
  have h255 : d ≠ 255 := by bv_omega
  refine ⟨t, hrun, hcommitted, ?_, ?_⟩
  · simpa only [h255, false_or] using hlevel
  · simpa only [h0, h255, false_or] using hevents

/-- Settles O53: at duty 0 no tick's number is below the duty, and at duty 255 there is no falling edge. -/
theorem endDutyWaveform : Obligations.EndDutyWaveform := by
  unfold Obligations.EndDutyWaveform
  intro s p k rest hs harmed hcycle hp hends hinputs hpos hk
  obtain ⟨t, hrun, -, hlevel, hevents⟩ := runSteps_cycle hs harmed hcycle hp rfl hinputs hpos hk
  have hone : (dutyAt s p).p = 0 ∨ (dutyAt s p).p = 255 ∨ k - 1 < (dutyAt s p).p.toNat := hends.imp_right .inl
  have hlevels : ((dutyAt s p).p = 255 ∨ k - 1 < (dutyAt s p).p.toNat) ↔ (dutyAt s p).p = 255 := by
    rcases hends with h | h <;> simp [h]
  refine ⟨t, hrun, ?_, ?_⟩
  · simpa only [hlevels] using hlevel
  · rwa [if_pos hone, Nat.mul_one] at hevents

/-! ### A pin registered inside a cycle -/

theorem dutyAt_registerAndReport_of_ok {p : Pin} {s : State} (h : (registerAndReport p s).result.ok = true) :
    dutyAt (registerAndReport p s) p = ⟨0, 0⟩ := by
  rcases registerAndReport_cases p s with ⟨-, hcase⟩ | ⟨_, _, _, -, hcase⟩ <;> rw [hcase] at h ⊢
  · cases h
  · exact dutyAt_setDuty_same p ⟨0, 0⟩ s

/-- An ENABLE or INIT that succeeds zeroes the pin's duty pair (R78). -/
theorem dutyAt_of_registered {i : Instr} {p : Pin} {s t : State} (hi : i = .enable p ∨ ∃ f, i = .init p f)
    (h : exec i s = .next t) (hok : t.result.ok = true) : dutyAt t p = ⟨0, 0⟩ := by
  rcases hi with rfl | ⟨f, rfl⟩
  · cases h
    exact dutyAt_registerAndReport_of_ok hok
  · by_cases hf : FrequencyInRange s.config f
    · cases (exec_init_of_inRange hf).symm.trans h
      exact dutyAt_registerAndReport_of_ok hok
    · cases (execInit_of_outOfRange hf).symm.trans h
      cases hok

/-- A tick inside the cycle leaves a pin alone that has nothing committed, live or not (R92, R99). -/
theorem service_undriven {s : State} {p : Pin} (hmid : s.cycle ≠ 0) (hzero : (dutyAt s p).c = 0) :
    Undriven p s.trace (service s).trace := by
  refine ⟨fallingEdges s, by rw [service_off_boundary hmid], fun e he => ?_⟩
  obtain ⟨q, hq, rfl⟩ := List.mem_map.1 he
  have hedge := (List.mem_filter.1 hq).2
  rw [drives_setPinLevel, decide_eq_false_iff_not]
  rintro rfl
  rw [decide_eq_true_eq, hzero] at hedge
  exact hmid hedge.1

theorem step_tick_undriven {s : State} {p : Pin} {rest : List Input} (hinputs : s.inputs = .tickIn 1 :: rest)
    (hmid : s.cycle ≠ 0) (hzero : (dutyAt s p).c = 0) :
    ∃ t, step s = .next t ∧ Undriven p s.trace t.trace ∧ t.inputs = rest ∧ (dutyAt t p).c = 0 ∧
      (t.cycle = s.cycle ∨ t.cycle = s.cycle + 1) := by
  rw [step_tick hinputs]
  rcases execTick_cases { s with inputs := rest } with ⟨-, htick⟩ | ⟨-, -, htick⟩
  · exact ⟨_, htick, .refl _ _, rfl, hzero, .inl rfl⟩
  · refine ⟨_, htick, service_undriven (s := { s with inputs := rest }) hmid hzero, service_inputs _, ?_,
      .inr (service_cycle _)⟩
    rw [service_duty, if_neg fun hc => hmid hc.1]
    exact hzero

/-- The ticks to the end of the cycle leave a pin alone that has nothing committed. -/
theorem runSteps_ticks_undriven {k : Nat} {s : State} {p : Pin} {rest : List Input} (hmid : k ≠ 0 → s.cycle ≠ 0)
    (hk : s.cycle.toNat + k ≤ 256) (hinputs : s.inputs = List.replicate k (.tickIn 1) ++ rest)
    (hzero : (dutyAt s p).c = 0) : ∃ t, runSteps k s = .next t ∧ Undriven p s.trace t.trace := by
  induction k generalizing s with
  | zero => exact ⟨s, rfl, .refl _ _⟩
  | succ k ih =>
    have hmid := hmid k.succ_ne_zero
    obtain ⟨t, hstep, hst, htInputs, htZero, hcycle⟩ := step_tick_undriven hinputs hmid hzero
    obtain ⟨hmidt, hkt⟩ : (k ≠ 0 → t.cycle ≠ 0) ∧ t.cycle.toNat + k ≤ 256 := by
      rcases hcycle with h | h <;> rw [h]
      · exact ⟨fun _ => hmid, by omega⟩
      · bv_omega
    obtain ⟨u, hrun, htu⟩ := ih hmidt hkt htInputs htZero
    exact ⟨u, by rw [runSteps, hstep]; exact hrun, hst.trans htu⟩

/-- Settles O55: registering zeroes the committed duty, WRITE leaves it, and no tick inside the cycle drives a pin that has
nothing committed. -/
theorem newPinWaitsForTheBoundary : Obligations.NewPinWaitsForTheBoundary := by
  unfold Obligations.NewPinWaitsForTheBoundary
  intro s e w i p d k rest hi hexec hok hwrite hmid hk hinputs
  obtain rfl : written p d e = w := by simpa [exec_write] using hwrite
  have hregisters : i = .enable p ∨ ∃ f, i = .init p f := hi.imp_right And.right
  have htick : i ≠ .tick := by rcases hregisters with rfl | ⟨f, rfl⟩ <;> nofun
  have hlater : s.init = true ∨ ∀ q f, i ≠ .init q f := by
    rcases hi with rfl | ⟨hinit, -⟩
    · exact .inr fun _ _ => nofun
    · exact .inl hinit
  have hcycle : (written p d e).cycle = s.cycle := exec_command_cycle (t := e) htick hlater hexec
  have hqueue : (written p d e).inputs = s.inputs := (exec_ports hexec).2.1
  have hzero : (dutyAt (written p d e) p).c = 0 := by
    rw [committed_written, dutyAt_of_registered hregisters hexec hok]
  have hregistered : Undriven p s.trace (written p d e).trace :=
    exec_command_undriven (t := e) htick hexec p
  obtain ⟨t, hrun, hticks⟩ := runSteps_ticks_undriven (fun _ => hcycle ▸ hmid) (hcycle ▸ hk) (hqueue.trans hinputs) hzero
  have hall : Undriven p s.trace t.trace := hregistered.trans hticks
  exact ⟨t, hrun, hall.countP, hall.pinLevel⟩

end Sys2Proof.Machine
